-- ==== Sys2Proof/Word.lean ====
section
/-! DEFINITION. The words of the HBPU: command words, bytes, counters and bit-strings. -/

namespace Sys2Proof

/-- A command word and a register value: 32 bits, bit 0 the least significant (R10, R61, R63). -/
abbrev Word := BitVec 32

/-- A stream byte and a symbol: 8 bits (R5, R10, R62). -/
abbrev Byte := BitVec 8

/-- An event counter of `CNT_W = 32` bits. Its addition wraps modulo 2^32 (R7, R13). -/
abbrev Counter := BitVec 32

/-- A bit-string (R11): its head is the first bit, the bit nearest the tree root. -/
abbrev BitString := List Bool

end Sys2Proof
end

