-- ==== Sys2Proof/Config.lean ====
section
/-! DEFINITION. What one build of the HBPU fixes. Nothing of the HBPU's results is left free, so there is no opaque value here. -/

namespace Sys2Proof.Config

/-- `MAX_CODE_LEN` of this hardware (R6). Other builds may have 1 to 255: the load operation
`Machine.tblLoad` takes the bound as an argument. -/
def maxCodeLen : Nat := 255

end Sys2Proof.Config
end

