-- ==== Sys2Proof/Syntax.lean ====
section
/-! DEFINITION. The command set: one constructor per row of spec/opcode_table.json (R80 to R89). -/

namespace Sys2Proof

/-- A command of the HBPU (R88). The operands are those of R87, and the code bits of `TBL_LD` are the
bit-string that R86 assembles from its payload words, so that `LEN` is the length of the bit-string.
The table has two rows RESERVED, by their masks: `OP` 0xA and 0xB, and `OP` 0xC to 0xF. -/
inductive Instr where
  | nop                                        -- 0x0, format N (R102)
  | tblClr                                     -- 0x1, format N (R110)
  | tblLd (sym : Byte) (code : BitString)      -- 0x2, format L (R111)
  | pkStart                                    -- 0x3, format N (R134)
  | pkSym (sym : Byte)                         -- 0x4, format S (R135)
  | pkFlush                                    -- 0x5, format N (R137)
  | upStart                                    -- 0x6, format N (R155)
  | upByte (byte : Byte)                       -- 0x7, format S (R156)
  | upTail (byte : Byte) (nv : BitVec 4)       -- 0x8, format T (R157)
  | upEnd                                      -- 0x9, format N (R158)
  | reservedAB (op : BitVec 4)                 -- 0xA and 0xB (R89, R103)
  | reservedCF (op : BitVec 4)                 -- 0xC to 0xF (R89, R103)
  deriving DecidableEq, Repr

end Sys2Proof
end

