-- ==== Sys2Proof/WellFormed.lean ====
section
/-! DEFINITION. Which terms of `Instr` a command word can spell. -/

namespace Sys2Proof

/-- The checks of the encoding, and nothing more: the code of a `TBL_LD` fits the 8-bit `LEN` field
(R84), and a reserved opcode lies in its row (R89). An illegal `NV`, an empty code and a code longer
than `MAX_CODE_LEN` are well formed: the block executes them and raises their error (R91). -/
def Instr.wf : Instr → Bool
  | .nop => true
  | .tblClr => true
  | .tblLd _ code => decide (code.length < 256)
  | .pkStart => true
  | .pkSym _ => true
  | .pkFlush => true
  | .upStart => true
  | .upByte _ => true
  | .upTail _ _ => true
  | .upEnd => true
  | .reservedAB op => decide (op = 0xA#4) || decide (op = 0xB#4)
  | .reservedCF op => decide (0xC#4 ≤ op)

/-- The instruction is one the encoding can spell. -/
abbrev Instr.WellFormed (i : Instr) : Prop := i.wf = true

end Sys2Proof
end

