-- ==== Sys2Proof/Decode.lean ====
section
/-! DEFINITION. From command words to instructions and back (`30_encoding.md`). The block's unit is the
32-bit word, which has no byte order (R68), so both directions work on lists of words. -/

namespace Sys2Proof

/-! ## Fields of a header word (R81 to R84, R87) -/

/-- `OP = w[31:28]` (R80). -/
def opField (w : Word) : BitVec 4 := w.extractLsb' 28 4

/-- `SYM` of format S and `BYTE` of formats S and T, `w[7:0]` (R82, R83). -/
def lowByteField (w : Word) : Byte := w.extractLsb' 0 8

/-- `NV = w[11:8]` of format T (R83). -/
def nvField (w : Word) : BitVec 4 := w.extractLsb' 8 4

/-- `SYM = w[23:16]` of format L (R84). -/
def loadSymField (w : Word) : Byte := w.extractLsb' 16 8

/-- `LEN = w[7:0]` of format L, as a number (R84). -/
def lenField (w : Word) : Nat := (w.extractLsb' 0 8).toNat

/-! ## Lengths (R85) -/

/-- `ceil(LEN/32)`, the number of payload words of a `TBL_LD` (R84). -/
def payloadCount (len : Nat) : Nat := (len + 31) / 32

/-- The number of words of a command, from its header word alone (R85). -/
def headerWords (w : Word) : Nat :=
  if opField w = 0x2#4 then 1 + payloadCount (lenField w) else 1

/-- The number of words of a command (R85). -/
def Instr.words : Instr → Nat
  | .tblLd _ code => 1 + payloadCount code.length
  | .nop => 1
  | .tblClr => 1
  | .pkStart => 1
  | .pkSym _ => 1
  | .pkFlush => 1
  | .upStart => 1
  | .upByte _ => 1
  | .upTail _ _ => 1
  | .upEnd => 1
  | .reservedAB _ => 1
  | .reservedCF _ => 1

/-! ## Decoding -/

/-- Why a list of words is not (yet) a command. Neither is an error of the block: it waits (R100). -/
inductive Reject where
  | noWord            -- there is no header word
  | payloadMissing    -- the header is a `TBL_LD` and its payload words are not all there
  deriving DecidableEq, Repr

/-- The code bits of a `TBL_LD` (R86): `CODE⟨i⟩ = P_(i div 32)[31 − (i mod 32)]` for `0 ≤ i < LEN`. -/
def codeOfPayload (len : Nat) (payload : List Word) : BitString :=
  (List.range len).map fun i => (payload.getD (i / 32) 0).getLsbD (31 - i % 32)

/-- The command of a header word whose length is one word (R88, R93). `TBL_LD` (0x2) is not one. -/
def decodeSingle (w : Word) : Instr :=
  match (opField w).toNat with
  | 0x0 => .nop
  | 0x1 => .tblClr
  | 0x3 => .pkStart
  | 0x4 => .pkSym (lowByteField w)
  | 0x5 => .pkFlush
  | 0x6 => .upStart
  | 0x7 => .upByte (lowByteField w)
  | 0x8 => .upTail (lowByteField w) (nvField w)
  | 0x9 => .upEnd
  | 0xA => .reservedAB (opField w)
  | 0xB => .reservedAB (opField w)
  | _ => .reservedCF (opField w)

/-- The command at the head of a list of words, with the words after it (R85, R93, R100). -/
def decode : List Word → Except Reject (Instr × List Word)
  | [] => .error .noWord
  | w :: ws =>
    if opField w = 0x2#4 then
      if ws.length < payloadCount (lenField w) then .error .payloadMissing
      else
        .ok (.tblLd (loadSymField w) (codeOfPayload (lenField w) (ws.take (payloadCount (lenField w)))),
          ws.drop (payloadCount (lenField w)))
    else .ok (decodeSingle w, ws)

/-! ## Encoding (R88, R94): every ignored bit is written 0 -/

/-- A word with `v` in the field whose lowest bit is `lo`, and 0 elsewhere (R10). -/
def fieldAt (lo : Nat) {n : Nat} (v : BitVec n) : Word := v.setWidth 32 <<< lo

/-- A header of format N or S: the opcode in 31:28 and an 8-bit operand in 7:0 (R81, R82). -/
def headerS (op : BitVec 4) (b : Byte) : Word := fieldAt 28 op ||| fieldAt 0 b

/-- A header of format T: OP 31:28, NV 11:8, BYTE 7:0 (R83). -/
def headerT (op : BitVec 4) (nv : BitVec 4) (b : Byte) : Word := fieldAt 28 op ||| fieldAt 8 nv ||| fieldAt 0 b

/-- A header of format L: OP 31:28, SYM 23:16, LEN 7:0 (R84). -/
def headerL (op : BitVec 4) (sym : Byte) (len : Nat) : Word :=
  fieldAt 28 op ||| fieldAt 16 sym ||| fieldAt 0 (BitVec.ofNat 8 len)

/-- The word whose bit 31 is the first bit of `x`, bit 30 the second and so on; bits past the end of
`x` are 0. -/
def wordOfBits (x : BitString) : Word :=
  (BitVec.ofBoolListBE ((x ++ List.replicate (32 - x.length) false).take 32)).setWidth 32

/-- The payload words of a code (R84, R86). -/
def payloadOfCode (code : BitString) : List Word :=
  (List.range (payloadCount code.length)).map fun p => wordOfBits ((code.drop (32 * p)).take 32)

/-- The words of a command (R88, R94). -/
def encode : Instr → List Word
  | .nop => [headerS 0x0#4 0#8]
  | .tblClr => [headerS 0x1#4 0#8]
  | .tblLd sym code => headerL 0x2#4 sym code.length :: payloadOfCode code
  | .pkStart => [headerS 0x3#4 0#8]
  | .pkSym sym => [headerS 0x4#4 sym]
  | .pkFlush => [headerS 0x5#4 0#8]
  | .upStart => [headerS 0x6#4 0#8]
  | .upByte byte => [headerS 0x7#4 byte]
  | .upTail byte nv => [headerT 0x8#4 nv byte]
  | .upEnd => [headerS 0x9#4 0#8]
  | .reservedAB op => [headerS op 0#8]
  | .reservedCF op => [headerS op 0#8]

/-! ## The rows of the opcode map (R88) -/

/-- One row of the opcode map: the words `w` with `w &&& mask = value` are the row's. -/
structure OpRow where
  mnemonic : String
  value : Word
  mask : Word
  deriving DecidableEq, Repr

/-- Whether a header word is of a row. -/
def OpRow.fits (r : OpRow) (w : Word) : Bool := w &&& r.mask == r.value

/-- The opcode map of R88 as the rows of spec/opcode_table.json. -/
def opRows : List OpRow := [
  ⟨"NOP", 0x00000000#32, 0xF0000000#32⟩,
  ⟨"TBL_CLR", 0x10000000#32, 0xF0000000#32⟩,
  ⟨"TBL_LD", 0x20000000#32, 0xF0000000#32⟩,
  ⟨"PK_START", 0x30000000#32, 0xF0000000#32⟩,
  ⟨"PK_SYM", 0x40000000#32, 0xF0000000#32⟩,
  ⟨"PK_FLUSH", 0x50000000#32, 0xF0000000#32⟩,
  ⟨"UP_START", 0x60000000#32, 0xF0000000#32⟩,
  ⟨"UP_BYTE", 0x70000000#32, 0xF0000000#32⟩,
  ⟨"UP_TAIL", 0x80000000#32, 0xF0000000#32⟩,
  ⟨"UP_END", 0x90000000#32, 0xF0000000#32⟩,
  ⟨"RESERVED", 0xA0000000#32, 0xE0000000#32⟩,
  ⟨"RESERVED", 0xC0000000#32, 0xC0000000#32⟩]

/-- The place of an instruction's row in `opRows`. -/
def Instr.rowIndex : Instr → Nat
  | .nop => 0
  | .tblClr => 1
  | .tblLd _ _ => 2
  | .pkStart => 3
  | .pkSym _ => 4
  | .pkFlush => 5
  | .upStart => 6
  | .upByte _ => 7
  | .upTail _ _ => 8
  | .upEnd => 9
  | .reservedAB _ => 10
  | .reservedCF _ => 11

/-- The bits of a header word that its format assigns (R81 to R84): the opcode and the operand fields.
Every other bit is reserved and ignored (R90). -/
def assignedMask (w : Word) : Word :=
  match (opField w).toNat with
  | 0x2 => 0xF0FF00FF#32
  | 0x4 => 0xF00000FF#32
  | 0x7 => 0xF00000FF#32
  | 0x8 => 0xF0000FFF#32
  | _ => 0xF0000000#32

/-! ## The host's numbering of an instruction's bits -/

/-- The command whose bits are `v`, bit 0 the least significant bit of the first word: its header and,
for a `TBL_LD`, its payload words, with every bit above `nbits` 0. -/
def tableWords (nbits v : Nat) : List Word :=
  let word (k : Nat) : Word := BitVec.ofNat 32 ((v % 2 ^ nbits) >>> (32 * k))
  (List.range (headerWords (word 0))).map word

/-- The instruction the decoder reads from the command whose bits are `w` (`tableWords`). -/
def decodeTableWord (nbits w : Nat) : Option Instr :=
  match decode (tableWords nbits w) with
  | .ok (i, _) => some i
  | .error _ => none

end Sys2Proof
end

