-- ==== Sys2Proof/Machine/State.lean ====
section
/-! DEFINITION. The block's state (`10_state.md` R20), the reasons a step has no next state, and reset (R51). -/

namespace Sys2Proof.Machine

/-- The code table T (R23, R24): entry `s` is `none` when VALID = 0 and `some CODE` when VALID = 1.
LEN is the length of CODE. An invalid entry holds no code at all. -/
abbrev Table := Vector (Option BitString) 256

/-- The block's whole state (R20), one field per element of the spec's record. Queues have their head
first (R61, R62). -/
structure State where
  /-- T, the code table (R23). -/
  table : Table
  /-- TBL_ERR: 0 or 2 TABLE_FORMAT (R26). -/
  tblErr : BitVec 4
  /-- TBL_SUB (R26). -/
  tblSub : BitVec 4
  /-- TBL_ERRSYM: the symbol of the TBL_LD that failed (R26). -/
  tblErrSym : Byte
  /-- PK_ACC: code bits appended that do not yet fill a byte, at most 7 (R27). -/
  pkAcc : BitString
  /-- PK_PAD: the pad count of the last PK_FLUSH, 0 to 7 (R28). -/
  pkPad : Nat
  /-- PK_SYMS (R29). -/
  pkSyms : Counter
  /-- PK_BYTES (R29). -/
  pkBytes : Counter
  /-- PK_ERR: 0 or 1 UNKNOWN_SYMBOL (R30). -/
  pkErr : BitVec 4
  /-- PK_SUB: always 0 (R30). -/
  pkSub : BitVec 4
  /-- PK_BADSYM: the symbol whose PK_SYM raised the error (R30). -/
  pkBadSym : Byte
  /-- UP_BUF: bits received since the last match, at most MAX_CODE_LEN (R31). -/
  upBuf : BitString
  /-- UP_SYMS (R32). -/
  upSyms : Counter
  /-- UP_BITS (R32). -/
  upBits : Counter
  /-- UP_ERR: 0, 3 DECODE or 4 ILLEGAL_COMMAND (R33). -/
  upErr : BitVec 4
  /-- UP_SUB (R33). -/
  upSub : BitVec 4
  /-- HALT: the decoder has met a reserved opcode (R34). -/
  halt : Bool
  /-- CMD_WORDS: command words executed since reset (R22). -/
  cmdWords : Counter
  /-- CQ: the command input queue (R61). -/
  cq : List Word
  /-- PKO: the pack output queue (R62). -/
  pko : List Byte
  /-- UPO: the unpack output queue (R62). -/
  upo : List Byte
  deriving DecidableEq, Repr

/-- Why the block has no step (R100). These are holds, not errors of the block: it waits for the host's
next `Write`, and all state is kept (R196). The errors of the spec are recorded in `State`. -/
inductive Fault where
  /-- Raised by `step` when CQ is empty: "There is no step when CQ is empty". Safe: the hardware does
  nothing here either until the host writes a word. -/
  | idle
  /-- Raised by `step` when the head of CQ is a TBL_LD whose payload words are not all in CQ (R100,
  R205), with HALT = 0. Safe: the hardware does nothing here either until the host writes a word. -/
  | awaitPayload
  deriving DecidableEq, Repr

/-- Why the model gives an instruction no meaning. -/
inductive Refusal where
  /-- Raised by an arm of `exec` whose instruction has no meaning yet. No arm raises it: every
  instruction is modelled. Safe. -/
  | notModelled (mnemonic : String)
  deriving DecidableEq, Repr

/-- The empty table: no entry is valid. -/
def emptyTable : Table := Vector.replicate 256 none

/-- The state after reset, the table of R51. -/
def State.reset : State where
  table := emptyTable
  tblErr := 0
  tblSub := 0
  tblErrSym := 0
  pkAcc := []
  pkPad := 0
  pkSyms := 0
  pkBytes := 0
  pkErr := 0
  pkSub := 0
  pkBadSym := 0
  upBuf := []
  upSyms := 0
  upBits := 0
  upErr := 0
  upSub := 0
  halt := false
  cmdWords := 0
  cq := []
  pko := []
  upo := []

end Sys2Proof.Machine
end

