-- ==== Sys2Proof/Machine/Flags.lean ====
section
/-! DEFINITION. The status flags of the block: the error codes and sub-codes of R181, the engines that hold
them, and the test every engine command makes of its own engine's flag (R46). -/

namespace Sys2Proof.Machine

/-- The three engines, each with its own error fields (`00_scope.md`, glossary). -/
inductive Engine where
  | tbl
  | pk
  | up
  deriving DecidableEq, Repr

/-- The errors an engine can raise, the rows of R181, with the symbol recorded where there is one. -/
inductive Err where
  | unknownSymbol (sym : Byte)
  | emptyCode (sym : Byte)
  | codeTooLong (sym : Byte)
  | duplicateSymbol (sym : Byte)
  | overflow
  | leftover
  | badNv
  deriving DecidableEq, Repr

/-- The engine that raises an error (R181). -/
def Err.engine : Err → Engine
  | .unknownSymbol _ => .pk
  | .emptyCode _ => .tbl
  | .codeTooLong _ => .tbl
  | .duplicateSymbol _ => .tbl
  | .overflow => .up
  | .leftover => .up
  | .badNv => .up

/-- The 4-bit code: 1 UNKNOWN_SYMBOL, 2 TABLE_FORMAT, 3 DECODE, 4 ILLEGAL_COMMAND (R181). -/
def Err.code : Err → BitVec 4
  | .unknownSymbol _ => 1
  | .emptyCode _ => 2
  | .codeTooLong _ => 2
  | .duplicateSymbol _ => 2
  | .overflow => 3
  | .leftover => 3
  | .badNv => 4

/-- The 4-bit sub-code (R181). -/
def Err.sub : Err → BitVec 4
  | .unknownSymbol _ => 0
  | .emptyCode _ => 1
  | .codeTooLong _ => 2
  | .duplicateSymbol _ => 3
  | .overflow => 1
  | .leftover => 2
  | .badNv => 1

/-- The value recorded with the error, "none for UP" (R184). -/
def Err.info : Err → Option Byte
  | .unknownSymbol sym => some sym
  | .emptyCode sym => some sym
  | .codeTooLong sym => some sym
  | .duplicateSymbol sym => some sym
  | .overflow => none
  | .leftover => none
  | .badNv => none

/-- The error field of an engine: TBL_ERR, PK_ERR or UP_ERR (R46). -/
def State.errOf (s : State) : Engine → BitVec 4
  | .tbl => s.tblErr
  | .pk => s.pkErr
  | .up => s.upErr

/-- An engine whose error field is non-zero ignores its job commands (R188). -/
def State.failed (s : State) (e : Engine) : Bool := s.errOf e != 0

end Sys2Proof.Machine
end

