-- ==== Sys2Proof/Machine/Operands.lean ====
section
/-! DEFINITION. Bytes and bit-strings: how an operand byte becomes stream bits and how stream bits become
a byte (R12, R67). -/

namespace Sys2Proof.Machine

/-- `byte(x)` for a bit-string of 8 bits: the first bit is bit 7, the last is bit 0 (R12). -/
def byteOf (x : BitString) : Byte := (BitVec.ofBoolListBE x).setWidth 8

/-- `bits(b)`: the 8-bit string `b[7], b[6], ..., b[0]` (R12, R67). -/
def bitsOf (b : Byte) : BitString := (List.range 8).map fun i => b.getLsbD (7 - i)

/-- The first `NV` bits of a byte, `BYTE[7]` down to `BYTE[8−NV]` (R157). -/
def leadingBits (nv : Nat) (b : Byte) : BitString := (bitsOf b).take nv

/-- `byte(x ++ "0"^(8−|x|))`: the bits of `x` left-aligned in a byte and completed by zeros (R40, R137). -/
def padToByte (x : BitString) : Byte := byteOf (x ++ List.replicate (8 - x.length) false)

/-- `NV` of UP_TAIL is legal from 1 to 8 (R91). -/
def nvLegal (nv : BitVec 4) : Bool := decide (1 ≤ nv.toNat) && decide (nv.toNat ≤ 8)

end Sys2Proof.Machine
end

