-- ==== Sys2Proof/Machine/Ops.lean ====
section
/-! DEFINITION. The named operations the meanings are made of: the code table, the queues and counters, raising
and clearing an error, the append primitive of the packer and the bit primitive of the unpacker. -/

namespace Sys2Proof.Machine

/-! ## The code table -/

theorem sym_lt_256 (sym : Byte) : sym.toNat < 256 := sym.isLt

/-- `TblRead(s)` (R13): the code of a symbol, none when its entry is not valid. -/
def Table.read (T : Table) (sym : Byte) : Option BitString := T[sym.toNat]'(sym_lt_256 sym)

/-- `TblWrite(s, e)` for a valid entry (R13): the code of one symbol. -/
def Table.write (T : Table) (sym : Byte) (code : BitString) : Table :=
  T.set sym.toNat (some code) (sym_lt_256 sym)

/-- `NVALID(T)`, the number of valid entries (R25). -/
def Table.nvalid (T : Table) : Nat := T.toList.countP Option.isSome

/-- LEN of a valid entry, 0 for an invalid one, which R25 leaves out of the maximum. -/
def entryLen : Option BitString → Nat
  | none => 0
  | some code => code.length

/-- `MAXL(T)`, the longest LEN among valid entries, 0 for an empty table (R25). -/
def Table.maxl (T : Table) : Nat := (T.toList.map entryLen).foldr max 0

/-- `min Match(T, x)`: the lowest symbol whose code is exactly `x`, by a scan of the 256 entries from
symbol 0 (R152). -/
def Table.lowestMatch (T : Table) (x : BitString) : Option Byte :=
  (T.toList.findIdx? fun e => e == some x).map fun n => BitVec.ofNat 8 n

/-! ## Command words -/

/-- Takes a command of `n` words from the head of CQ and counts them in CMD_WORDS (R22, R100, R112). -/
def consume (n : Nat) (s : State) : State :=
  { s with cq := s.cq.drop n, cmdWords := s.cmdWords + BitVec.ofNat 32 n }

/-- Removes one word from the head of CQ and changes nothing else (R104). -/
def discardHead (s : State) : State := { s with cq := s.cq.drop 1 }

/-- `S.HALT <- 1` (R103). -/
def setHalt (s : State) : State := { s with halt := true }

/-! ## Writes of the engines -/

/-- Clears VALID of every entry (R110, R114). -/
def clearTable (s : State) : State := { s with table := emptyTable }

/-- Makes one entry valid (R111). -/
def setEntry (sym : Byte) (code : BitString) (s : State) : State :=
  { s with table := s.table.write sym code }

/-- `Push(PKO, b)` with the count of it, `S.PK_BYTES <- S.PK_BYTES +w 1` (R132, R137). -/
def pushPko (b : Byte) (s : State) : State := { s with pko := s.pko ++ [b], pkBytes := s.pkBytes + 1 }

/-- `S.PK_ACC <- x`. -/
def setPkAcc (x : BitString) (s : State) : State := { s with pkAcc := x }

/-- `S.PK_PAD <- n`. -/
def setPkPad (n : Nat) (s : State) : State := { s with pkPad := n }

/-- `S.PK_SYMS <- S.PK_SYMS +w 1` (R135). -/
def countPkSym (s : State) : State := { s with pkSyms := s.pkSyms + 1 }

/-- `S.PK_SYMS <- 0; S.PK_BYTES <- 0` (R134). -/
def clearPkCounters (s : State) : State := { s with pkSyms := 0, pkBytes := 0 }

/-- `Push(UPO, s)` with the count of it, `S.UP_SYMS <- S.UP_SYMS +w 1` (R153). -/
def pushUpo (sym : Byte) (s : State) : State := { s with upo := s.upo ++ [sym], upSyms := s.upSyms + 1 }

/-- `S.UP_BUF <- x`. -/
def setUpBuf (x : BitString) (s : State) : State := { s with upBuf := x }

/-- `S.UP_BUF <- S.UP_BUF ++ [b]; S.UP_BITS <- S.UP_BITS +w 1` (R153). -/
def takeUpBit (b : Bool) (s : State) : State := { s with upBuf := s.upBuf ++ [b], upBits := s.upBits + 1 }

/-- `S.UP_SYMS <- 0; S.UP_BITS <- 0` (R155). -/
def clearUpCounters (s : State) : State := { s with upSyms := 0, upBits := 0 }

/-! ## Raising and clearing an error: the block's exception and its return -/

/-- `raise Err(E, code, sub, info)` (R184), the one operation that records an error. It writes the code and
sub-code of the error's engine, writes the engine's recorded value, and applies the engine's own clearing:
every VALID for TBL (R114), PK_ACC for PK (R131), UP_BUF for UP (R151). No other engine's state changes. -/
def raiseErr (e : Err) (s : State) : State :=
  match e.engine with
  | .tbl => { s with tblErr := e.code, tblSub := e.sub, tblErrSym := e.info.getD 0, table := emptyTable }
  | .pk => { s with pkErr := e.code, pkSub := e.sub, pkBadSym := e.info.getD 0, pkAcc := [] }
  | .up => { s with upErr := e.code, upSub := e.sub, upBuf := [] }

/-- `S.TBL_ERR <- 0; S.TBL_SUB <- 0; S.TBL_ERRSYM <- 0` (R110, R187). -/
def clearTblErr (s : State) : State := { s with tblErr := 0, tblSub := 0, tblErrSym := 0 }

/-- `S.PK_ERR <- 0; S.PK_SUB <- 0; S.PK_BADSYM <- 0` (R134, R187). -/
def clearPkErr (s : State) : State := { s with pkErr := 0, pkSub := 0, pkBadSym := 0 }

/-- `S.UP_ERR <- 0; S.UP_SUB <- 0` (R155, R187). -/
def clearUpErr (s : State) : State := { s with upErr := 0, upSub := 0 }

/-! ## The table load -/

/-- `Exec_TBL_LD` for a build whose `MAX_CODE_LEN` is `maxLen` (R111): ignored on a poisoned table (R115),
then the three checks in the order of R113, then the entry is written. -/
def tblLoad (maxLen : Nat) (sym : Byte) (code : BitString) (s : State) : State :=
  if s.failed .tbl then s
  else if code.length = 0 then raiseErr (.emptyCode sym) s
  else if maxLen < code.length then raiseErr (.codeTooLong sym) s
  else if (s.table.read sym).isSome then raiseErr (.duplicateSymbol sym) s
  else setEntry sym code s

/-! ## The packer's append primitive -/

/-- One turn of the loop of `PkAppend` (R132): append a bit, and emit the byte when 8 bits wait. -/
def pkAppendBit (b : Bool) (s : State) : State :=
  if (s.pkAcc ++ [b]).length = 8 then setPkAcc [] (pushPko (byteOf (s.pkAcc ++ [b])) s)
  else setPkAcc (s.pkAcc ++ [b]) s

/-- `PkAppend(x)` (R132): the bits of `x` one at a time, first bit first. -/
def pkAppend : BitString → State → State
  | [], s => s
  | b :: x, s => pkAppend x (pkAppendBit b s)

/-- The body of PK_FLUSH (R137): nothing but PAD = 0 when no bit waits, else the padded byte. -/
def pkFlushPending (s : State) : State :=
  if s.pkAcc.length = 0 then setPkPad 0 s
  else setPkAcc [] (setPkPad (8 - s.pkAcc.length) (pushPko (padToByte s.pkAcc) s))

/-! ## The unpacker's bit primitive -/

/-- What `UpBit` returns (R153), with the state it leaves. -/
inductive BitResult where
  | ok (s : State)
  | stop (s : State)
  deriving DecidableEq, Repr

/-- `UpBit(b)` (R153): the bit is appended and counted, and the new buffer is tested for a match, then for
overflow. -/
def upBit (b : Bool) (s : State) : BitResult :=
  match s.table.lowestMatch (s.upBuf ++ [b]) with
  | some sym => .ok (setUpBuf [] (pushUpo sym (takeUpBit b s)))
  | none =>
    if s.table.maxl < (s.upBuf ++ [b]).length then .stop (raiseErr .overflow (takeUpBit b s))
    else .ok (takeUpBit b s)

/-- The bit loop of UP_BYTE and UP_TAIL (R156, R157): bits in order until one answers STOP. -/
def upFeed : BitString → State → State
  | [], s => s
  | b :: x, s =>
    match upBit b s with
    | .ok t => upFeed x t
    | .stop t => t

end Sys2Proof.Machine
end

