-- ==== Sys2Proof/Machine/Control.lean ====
section
/-! DEFINITION. The commands of no engine: NOP and the reserved opcodes (`40_control.md`). -/

namespace Sys2Proof.Machine

/-- NOP (R102): nothing. -/
def execNop (s : State) : Host.Outcome State Fault Refusal := .next s

/-- A reserved opcode 0xA or 0xB (R103): `S.HALT <- 1`. The word's other bits are not examined. -/
def execReservedAB (_op : BitVec 4) (s : State) : Host.Outcome State Fault Refusal := .next (setHalt s)

/-- A reserved opcode 0xC to 0xF (R103): `S.HALT <- 1`. The word's other bits are not examined. -/
def execReservedCF (_op : BitVec 4) (s : State) : Host.Outcome State Fault Refusal := .next (setHalt s)

end Sys2Proof.Machine
end

