-- ==== Sys2Proof/Machine/Pack.lean ====
section
/-! DEFINITION. The pack engine: PK_START, PK_SYM, PK_FLUSH (`42_pack.md`). -/

namespace Sys2Proof.Machine

/-- PK_START (R134): empty buffer, PAD 0, counters 0, error cleared. PKO is not emptied. -/
def execPkStart (s : State) : Host.Outcome State Fault Refusal :=
  .next (clearPkErr (clearPkCounters (setPkPad 0 (setPkAcc [] s))))

/-- PK_SYM (R135): ignored while PK_ERR ≠ 0 (R130). An entry that is not valid raises UNKNOWN_SYMBOL before
any bit is appended. Else the code is appended and the symbol counted. -/
def execPkSym (sym : Byte) (s : State) : Host.Outcome State Fault Refusal :=
  if s.failed .pk then .next s
  else
    match s.table.read sym with
    | none => .next (raiseErr (.unknownSymbol sym) s)
    | some code => .next (countPkSym (pkAppend code s))

/-- PK_FLUSH (R137): ignored while PK_ERR ≠ 0 (R130), else completes the final byte. -/
def execPkFlush (s : State) : Host.Outcome State Fault Refusal :=
  if s.failed .pk then .next s else .next (pkFlushPending s)

end Sys2Proof.Machine
end

