-- ==== Sys2Proof/Machine/TableCmds.lean ====
section
/-! DEFINITION. The code-table commands TBL_CLR and TBL_LD (`41_table.md`). -/

namespace Sys2Proof.Machine

/-- TBL_CLR (R110): no entry is valid, and the table error is cleared. -/
def execTblClr (s : State) : Host.Outcome State Fault Refusal := .next (clearTblErr (clearTable s))

/-- TBL_LD (R111) of this hardware, whose MAX_CODE_LEN is 255 (R6). -/
def execTblLd (sym : Byte) (code : BitString) (s : State) : Host.Outcome State Fault Refusal :=
  .next (tblLoad Config.maxCodeLen sym code s)

end Sys2Proof.Machine
end

