-- ==== Sys2Proof/Machine/Unpack.lean ====
section
/-! DEFINITION. The unpack engine: UP_START, UP_BYTE, UP_TAIL, UP_END (`43_unpack.md`). -/

namespace Sys2Proof.Machine

/-- UP_START (R155): empty buffer, counters 0, error cleared. UPO is not emptied. -/
def execUpStart (s : State) : Host.Outcome State Fault Refusal :=
  .next (clearUpErr (clearUpCounters (setUpBuf [] s)))

/-- UP_BYTE (R156): ignored while UP_ERR ≠ 0 (R150), else all 8 bits go to the matcher, bit 7 first. -/
def execUpByte (byte : Byte) (s : State) : Host.Outcome State Fault Refusal :=
  if s.failed .up then .next s else .next (upFeed (bitsOf byte) s)

/-- UP_TAIL (R157): ignored while UP_ERR ≠ 0 (R150). An illegal NV raises BAD_NV before any bit. Else the
first NV bits of the byte go to the matcher, and the rest are padding, ignored. -/
def execUpTail (byte : Byte) (nv : BitVec 4) (s : State) : Host.Outcome State Fault Refusal :=
  if s.failed .up then .next s
  else if nvLegal nv then .next (upFeed (leadingBits nv.toNat byte) s)
  else .next (raiseErr .badNv s)

/-- UP_END (R158): ignored while UP_ERR ≠ 0 (R150). Bits that match no code are LEFTOVER. -/
def execUpEnd (s : State) : Host.Outcome State Fault Refusal :=
  if s.failed .up then .next s
  else if s.upBuf.length ≠ 0 then .next (raiseErr .leftover s)
  else .next s

end Sys2Proof.Machine
end

