-- ==== Sys2Proof/Machine/Dispatch.lean ====
section
/-! DEFINITION. One arm per command: the `case op` of `Step` (R100). -/

namespace Sys2Proof.Machine

def exec (i : Instr) (s : State) : Host.Outcome State Fault Refusal :=
  match i with
  | .nop => Sys2Proof.Machine.execNop s
  | .tblClr => Sys2Proof.Machine.execTblClr s
  | .tblLd sym code => Sys2Proof.Machine.execTblLd sym code s
  | .pkStart => Sys2Proof.Machine.execPkStart s
  | .pkSym sym => Sys2Proof.Machine.execPkSym sym s
  | .pkFlush => Sys2Proof.Machine.execPkFlush s
  | .upStart => Sys2Proof.Machine.execUpStart s
  | .upByte byte => Sys2Proof.Machine.execUpByte byte s
  | .upTail byte nv => Sys2Proof.Machine.execUpTail byte nv s
  | .upEnd => Sys2Proof.Machine.execUpEnd s
  | .reservedAB op => Sys2Proof.Machine.execReservedAB op s
  | .reservedCF op => Sys2Proof.Machine.execReservedCF op s

end Sys2Proof.Machine
end

