-- ==== Sys2Proof/Machine/Fetch.lean ====
section
/-! DEFINITION. What the head of CQ gives the block (R100, R104). -/

namespace Sys2Proof.Machine

/-- The four cases of `Step` (R100). -/
inductive Fetched where
  | idle                   -- CQ is empty: no step
  | discard                -- HALT = 1: the head word is discarded
  | awaitPayload           -- the head is a TBL_LD without all its payload words: no step
  | command (i : Instr)    -- the command at the head of CQ
  deriving DecidableEq, Repr

/-- Looks at the head of CQ in the order of R100 and R189: an empty queue, then HALT, then the opcode.
A halted block discards every word, a TBL_LD header without its payload among them (R104). -/
def fetch (s : State) : Fetched :=
  if s.cq.isEmpty then .idle
  else if s.halt then .discard
  else
    match decode s.cq with
    | .ok (i, _) => .command i
    | .error .noWord => .idle
    | .error .payloadMissing => .awaitPayload

/-- A state with the command whose bits are `w` (`tableWords`) placed at the head of CQ, before the words
that wait there, and HALT = 0, so that the next step runs it. -/
def placeCommand (nbits w : Nat) (s : State) : State :=
  { s with cq := tableWords nbits w ++ s.cq, halt := false }

end Sys2Proof.Machine
end

