-- ==== Sys2Proof/Machine/Step.lean ====
section
/-! DEFINITION. The block's step (R100). -/

namespace Sys2Proof.Machine

/-- `Step(S)` (R100): the command at the head of CQ leaves CQ, its words are counted in CMD_WORDS, and it
executes, all in one step (R70). The commands read neither CQ nor CMD_WORDS, so the order of the two
halves, which differs in the pseudocode between TBL_LD and the others, does not matter. Where R100 has
no step the answer is the fault that says why. -/
def step (s : State) : Host.Outcome State Fault Refusal :=
  match fetch s with
  | .idle => .fault .idle
  | .discard => .next (discardHead s)
  | .awaitPayload => .fault .awaitPayload
  | .command i => exec i (consume i.words s)

/-- The state in which the next step runs the command whose bits are `w` (`placeCommand`). -/
def State.withFetchWord (s : State) (nbits w : Nat) : State := placeCommand nbits w s

end Sys2Proof.Machine
end

