-- ==== Sys2Proof/Machine/Assembler.lean ====
section
/-! DEFINITION. The assembler's forms as data (R94, R95): commands, `.word`, and the pseudo-instructions. -/

namespace Sys2Proof.Machine

/-- `TBL_LOAD {s1:"c1", ...}` (R95): TBL_CLR, then one TBL_LD per entry, in the order given, which R95 has
ascending. -/
def asmTblLoad (entries : List (Byte × BitString)) : List Instr :=
  .tblClr :: entries.map fun e => .tblLd e.1 e.2

/-- `PK_BYTES b0, b1, ...` (R95). -/
def asmPkBytes (bytes : List Byte) : List Instr := bytes.map .pkSym

/-- `PK_STREAM b0, ..., bn−1` (R95). -/
def asmPkStream (bytes : List Byte) : List Instr := .pkStart :: (asmPkBytes bytes ++ [.pkFlush])

/-- `UP_STREAM pad; b0, ..., bn−1` (R95): every byte but the last by UP_BYTE, the last by UP_TAIL with
`8 − pad` valid bits. -/
def asmUpStream (pad : Nat) (bytes : List Byte) : List Instr :=
  match bytes.getLast? with
  | none => [.upStart, .upEnd]
  | some last =>
    .upStart :: (bytes.dropLast.map .upByte ++ [.upTail last (BitVec.ofNat 4 (8 - pad)), .upEnd])

/-- One line of assembler source (R94, R95). -/
inductive AsmLine where
  | cmd (i : Instr)
  | word (w : Word)
  | tblLoad (entries : List (Byte × BitString))
  | pkBytes (bytes : List Byte)
  | pkStream (bytes : List Byte)
  | upStream (pad : Nat) (bytes : List Byte)
  deriving DecidableEq, Repr

/-- The entries of a TBL_LOAD in ascending symbol order (R95). R95 does not say in which order entries of the same symbol
come: the sort is stable and keeps the order of the source, a DESIGN CHOICE (log entry 15). -/
def sortEntries (entries : List (Byte × BitString)) : List (Byte × BitString) :=
  entries.insertionSort fun a b => a.1.toNat ≤ b.1.toNat

/-- The words of one line. -/
def AsmLine.words : AsmLine → List Word
  | .cmd i => encode i
  | .word w => [w]
  | .tblLoad entries => (asmTblLoad (sortEntries entries)).flatMap encode
  | .pkBytes bytes => (asmPkBytes bytes).flatMap encode
  | .pkStream bytes => (asmPkStream bytes).flatMap encode
  | .upStream pad bytes => (asmUpStream pad bytes).flatMap encode

/-- The words of a program. -/
def assemble (lines : List AsmLine) : List Word := lines.flatMap AsmLine.words

end Sys2Proof.Machine
end

