-- ==== Sys2Proof/Machine/Capacity.lean ====
section
/-! DEFINITION. The room conditions of the hardware's bounded queues (R66). The depths are OPEN parameters (R8),
so they are arguments here. `step` reads none of this: "The model treats every queue as unbounded". -/

namespace Sys2Proof.Machine

/-- The most bytes a command can push to PKO (R66): 32 for PK_SYM, 1 for PK_FLUSH. -/
def maxPushPko : Instr → Nat
  | .pkSym _ => 32
  | .pkFlush => 1
  | .nop => 0
  | .tblClr => 0
  | .tblLd _ _ => 0
  | .pkStart => 0
  | .upStart => 0
  | .upByte _ => 0
  | .upTail _ _ => 0
  | .upEnd => 0
  | .reservedAB _ => 0
  | .reservedCF _ => 0

/-- The most symbols a command can push to UPO (R66): 8 for UP_BYTE and UP_TAIL. -/
def maxPushUpo : Instr → Nat
  | .upByte _ => 8
  | .upTail _ _ => 8
  | .nop => 0
  | .tblClr => 0
  | .tblLd _ _ => 0
  | .pkStart => 0
  | .pkSym _ => 0
  | .pkFlush => 0
  | .upStart => 0
  | .upEnd => 0
  | .reservedAB _ => 0
  | .reservedCF _ => 0

/-- The condition under which the hardware starts a command (R66), for OUT_FIFO_DEPTH = `depth`: the output
queue it may push to has room for the most bytes it can push. -/
def roomFor (depth : Nat) (i : Instr) (s : State) : Bool :=
  decide (maxPushPko i = 0 ∨ s.pko.length + maxPushPko i ≤ depth) &&
    decide (maxPushUpo i = 0 ∨ s.upo.length + maxPushUpo i ≤ depth)

/-- Whether the hardware starts the next step in this state (R66): a command waits for room, and a discarded
word, which pushes nothing, does not. -/
def canStart (depth : Nat) (s : State) : Bool :=
  match fetch s with
  | .idle => false
  | .awaitPayload => false
  | .discard => true
  | .command i => roomFor depth i s

/-- Whether CMD takes a word from the host without waiting, for CMD_FIFO_DEPTH = `depth` (R66). -/
def canWrite (depth : Nat) (s : State) : Bool := decide (s.cq.length < depth)

end Sys2Proof.Machine
end

