-- ==== Sys2Proof/Machine/Registers.lean ====
section
/-! DEFINITION. The register bank: 16 read-only 32-bit registers, each a view of the state (R35 to R45). -/

namespace Sys2Proof.Machine

/-- STATUS, IDX 0 (R38): TBL_ERR 3:0, TBL_SUB 7:4, PK_ERR 11:8, PK_SUB 15:12, UP_ERR 19:16, UP_SUB 23:20,
HALT 24. -/
def regStatus (s : State) : Word :=
  fieldAt 0 s.tblErr ||| fieldAt 4 s.tblSub ||| fieldAt 8 s.pkErr ||| fieldAt 12 s.pkSub |||
    fieldAt 16 s.upErr ||| fieldAt 20 s.upSub ||| fieldAt 24 (BitVec.ofBool s.halt)

/-- TBL_INFO, IDX 1 (R39): NVALID 8:0, MAXL 23:16, ERRSYM 31:24. -/
def regTblInfo (s : State) : Word :=
  fieldAt 0 (BitVec.ofNat 9 s.table.nvalid) ||| fieldAt 16 (BitVec.ofNat 8 s.table.maxl) |||
    fieldAt 24 s.tblErrSym

/-- PK_BUF, IDX 2 (R40): NB 3:0, ACC 15:8, PAD 19:16, BADSYM 31:24. ACC is the byte PK_FLUSH would emit now. -/
def regPkBuf (s : State) : Word :=
  fieldAt 0 (BitVec.ofNat 4 s.pkAcc.length) ||| fieldAt 8 (padToByte s.pkAcc) |||
    fieldAt 16 (BitVec.ofNat 4 s.pkPad) ||| fieldAt 24 s.pkBadSym

/-- UP_BUF, IDX 5 (R42): UL 7:0, the length of the buffer. Its content is hidden (R47). -/
def regUpBuf (s : State) : Word := fieldAt 0 (BitVec.ofNat 8 s.upBuf.length)

/-- The register with index `idx` (R35, R41 to R45). IDX 9 to 15 read as 0. -/
def readReg (idx : BitVec 4) (s : State) : Word :=
  match idx.toNat with
  | 0 => regStatus s
  | 1 => regTblInfo s
  | 2 => regPkBuf s
  | 3 => s.pkSyms
  | 4 => s.pkBytes
  | 5 => regUpBuf s
  | 6 => s.upSyms
  | 7 => s.upBits
  | 8 => s.cmdWords
  | _ => 0

end Sys2Proof.Machine
end

