-- ==== Sys2Proof/Machine/HostPort.lean ====
section
/-! DEFINITION. The host's actions (R108), each an atomic step of the host agent between two steps of the
block, and the two agents together. -/

namespace Sys2Proof.Machine

/-- The host's actions (R108). -/
inductive HostAction where
  | write (w : Word)
  | popPko
  | popUpo
  | read (idx : BitVec 4)
  | reset
  deriving DecidableEq, Repr

/-- What an action returns to the host. -/
inductive Reply where
  | done
  | byte (b : Byte)
  | value (w : Word)
  deriving DecidableEq, Repr

/-- `Write(w)`: append one word to the tail of CQ (R61). -/
def hostWrite (w : Word) (s : State) : State := { s with cq := s.cq ++ [w] }

/-- The state after a pop of PKO: its head byte is removed (R62). -/
def dropPko (s : State) : State := { s with pko := s.pko.drop 1 }

/-- The state after a pop of UPO: its head byte is removed (R62). -/
def dropUpo (s : State) : State := { s with upo := s.upo.drop 1 }

/-- A host action: none when it is not enabled, else the state after it and what it returns (R108). -/
def hostStep (a : HostAction) (s : State) : Option (State × Reply) :=
  match a with
  | .write w => some (hostWrite w s, .done)
  | .popPko => s.pko.head?.map fun b => (dropPko s, .byte b)
  | .popUpo => s.upo.head?.map fun b => (dropUpo s, .byte b)
  | .read idx => if s.cq.isEmpty then some (s, .value (readReg idx s)) else none
  | .reset => some (State.reset, .done)

/-- Steps of the block until it has none, at most `n`. -/
def drain : Nat → State → State
  | 0, s => s
  | n + 1, s =>
    match step s with
    | .next t => drain n t
    | .fault _ => s
    | .refused _ => s

/-- The state in which the block has no step. Each step takes a word from CQ, so as many steps as CQ has
words are enough. -/
def drained (s : State) : State := drain s.cq.length s

/-- A register read with the drain it waits for (R72): the register in the state after every command word
written before it, or none when the read waits for ever behind an incomplete TBL_LD (R205). -/
def readDrained (idx : BitVec 4) (s : State) : Option (State × Reply) := hostStep (.read idx) (drained s)

/-- What can happen in the system of the two agents (R60). -/
inductive Event where
  | block
  | host (a : HostAction)
  deriving DecidableEq, Repr

/-- One event of the system: none when the agent has no step. -/
def sysStep (e : Event) (s : State) : Option State :=
  match e with
  | .block =>
    match step s with
    | .next t => some t
    | .fault _ => none
    | .refused _ => none
  | .host a => (hostStep a s).map Prod.fst

end Sys2Proof.Machine
end

