-- ==== Sys2Proof/Machine/Run.lean ====
section
/-! DEFINITION. Jobs and runs: commands executed one after another (R71), and the run of a word sequence after a
reset (R109). -/

namespace Sys2Proof.Machine

/-- The meanings of a list of commands, one after another. -/
def runCmds : List Instr → State → Host.Outcome State Fault Refusal
  | [], s => .next s
  | i :: is, s =>
    match exec i s with
    | .next t => runCmds is t
    | .fault f => .fault f
    | .refused r => .refused r

/-- The result of a run (R109): the bytes pushed to PKO and UPO, and the 16 registers. -/
structure RunResult where
  pko : List Byte
  upo : List Byte
  regs : List Word
  deriving DecidableEq, Repr

/-- The run of the words `W` written after a reset (R109): none when it never ends, because `W` ends partway
through a TBL_LD. -/
def runWords (W : List Word) : Option RunResult :=
  let s := drained (W.foldl (fun s w => hostWrite w s) State.reset)
  if s.cq.isEmpty then
    some ⟨s.pko, s.upo, (List.range 16).map fun k => readReg (BitVec.ofNat 4 k) s⟩
  else none

end Sys2Proof.Machine
end

