-- ==== Sys2Proof/Safety.lean ====
section
/-! DEFINITION. The terms claims use: the invariant of the block, which parts of the state an effect leaves alone,
the reachable states of the two agents, and the source's packer and unpacker as pure functions on bit-strings. -/

namespace Sys2Proof.Safety

open Sys2Proof.Machine

/-! ## The invariant -/

/-- Every valid code has 1 to MAX_CODE_LEN bits (R23). -/
def TableOk (T : Table) : Prop :=
  ∀ sym code, T.read sym = some code → 1 ≤ code.length ∧ code.length ≤ Config.maxCodeLen

/-- TBL_ERR is 0 with its sub-code and symbol 0, or 2 with sub-code 1 to 3 and no valid entry (R26). -/
def TblErrLegal (s : State) : Prop :=
  (s.tblErr = 0 ∧ s.tblSub = 0 ∧ s.tblErrSym = 0) ∨
    (s.tblErr = 2 ∧ (s.tblSub = 1 ∨ s.tblSub = 2 ∨ s.tblSub = 3) ∧ s.table = emptyTable)

/-- PK_ERR is 0 with PK_BADSYM 0, or 1 with no bit waiting; PK_SUB is always 0 (R30, R131). -/
def PkErrLegal (s : State) : Prop :=
  s.pkSub = 0 ∧ ((s.pkErr = 0 ∧ s.pkBadSym = 0) ∨ (s.pkErr = 1 ∧ s.pkAcc = []))

/-- UP_ERR and UP_SUB are 0/0, or 3/1, 3/2 or 4/1 with an empty buffer (R33, R151). -/
def UpErrLegal (s : State) : Prop :=
  (s.upErr = 0 ∧ s.upSub = 0) ∨
    (((s.upErr = 3 ∧ (s.upSub = 1 ∨ s.upSub = 2)) ∨ (s.upErr = 4 ∧ s.upSub = 1)) ∧ s.upBuf = [])

/-- What holds between commands: the bounds of R23, R27, R28 and R31 and the legal error values of R26, R30,
R33 and R38. -/
structure Inv (s : State) : Prop where
  tableOk : TableOk s.table
  tblErr : TblErrLegal s
  pkAcc : s.pkAcc.length ≤ 7
  pkPad : s.pkPad ≤ 7
  pkErr : PkErrLegal s
  upBuf : s.upBuf.length ≤ Config.maxCodeLen
  upErr : UpErrLegal s

/-! ## Frames: parts of the state that are the same in two states (R107) -/

/-- The table loader's state: T, TBL_ERR, TBL_SUB, TBL_ERRSYM. -/
def SameTbl (s t : State) : Prop :=
  t.table = s.table ∧ t.tblErr = s.tblErr ∧ t.tblSub = s.tblSub ∧ t.tblErrSym = s.tblErrSym

/-- The pack engine's state and its output queue PKO. -/
def SamePk (s t : State) : Prop :=
  t.pkAcc = s.pkAcc ∧ t.pkPad = s.pkPad ∧ t.pkSyms = s.pkSyms ∧ t.pkBytes = s.pkBytes ∧
    t.pkErr = s.pkErr ∧ t.pkSub = s.pkSub ∧ t.pkBadSym = s.pkBadSym ∧ t.pko = s.pko

/-- The unpack engine's state and its output queue UPO. -/
def SameUp (s t : State) : Prop :=
  t.upBuf = s.upBuf ∧ t.upSyms = s.upSyms ∧ t.upBits = s.upBits ∧
    t.upErr = s.upErr ∧ t.upSub = s.upSub ∧ t.upo = s.upo

/-- The decoder's state: HALT, CMD_WORDS and CQ. -/
def SameCtl (s t : State) : Prop := t.halt = s.halt ∧ t.cmdWords = s.cmdWords ∧ t.cq = s.cq

/-! ## Engines' commands (R107) -/

/-- PK_START, PK_SYM, PK_FLUSH. -/
def isPk : Instr → Bool
  | .pkStart => true
  | .pkSym _ => true
  | .pkFlush => true
  | .nop => false
  | .tblClr => false
  | .tblLd _ _ => false
  | .upStart => false
  | .upByte _ => false
  | .upTail _ _ => false
  | .upEnd => false
  | .reservedAB _ => false
  | .reservedCF _ => false

/-- UP_START, UP_BYTE, UP_TAIL, UP_END. -/
def isUp : Instr → Bool
  | .upStart => true
  | .upByte _ => true
  | .upTail _ _ => true
  | .upEnd => true
  | .nop => false
  | .tblClr => false
  | .tblLd _ _ => false
  | .pkStart => false
  | .pkSym _ => false
  | .pkFlush => false
  | .reservedAB _ => false
  | .reservedCF _ => false

/-- TBL_CLR, TBL_LD. -/
def isTbl : Instr → Bool
  | .tblClr => true
  | .tblLd _ _ => true
  | .nop => false
  | .pkStart => false
  | .pkSym _ => false
  | .pkFlush => false
  | .upStart => false
  | .upByte _ => false
  | .upTail _ _ => false
  | .upEnd => false
  | .reservedAB _ => false
  | .reservedCF _ => false

/-- A reserved opcode. -/
def isReserved : Instr → Bool
  | .reservedAB _ => true
  | .reservedCF _ => true
  | .nop => false
  | .tblClr => false
  | .tblLd _ _ => false
  | .pkStart => false
  | .pkSym _ => false
  | .pkFlush => false
  | .upStart => false
  | .upByte _ => false
  | .upTail _ _ => false
  | .upEnd => false

/-! ## Reachable states and runs -/

/-- The states the block and the host can reach together from reset (R60, R108). -/
inductive Reachable : State → Prop where
  | reset : Reachable State.reset
  | event (e : Event) (s t : State) : Reachable s → sysStep e s = some t → Reachable t

/-- The end of a run: every word has been taken from CQ (R109). -/
def Finished (s : State) : Prop := s.cq = []

/-- No engine has failed and the decoder has not halted: what the host checks before it keeps a job's output
(R186, R202, R209). -/
def NoError (s : State) : Prop := s.tblErr = 0 ∧ s.pkErr = 0 ∧ s.upErr = 0 ∧ s.halt = false

/-! ## The source's packer and unpacker on bit-strings (R133, R152, R153, R160) -/

/-- No code is a prefix of another (R160, and `00_scope.md`, glossary). -/
def PrefixFree (T : Table) : Prop :=
  ∀ a b ca cb, T.read a = some ca → T.read b = some cb → a ≠ b → ¬ ca <+: cb

/-- Every symbol has a code in the table. -/
def Covers (T : Table) (syms : List Byte) : Prop := ∀ sym ∈ syms, ∃ code, T.read sym = some code

/-- `CODE(s_0) ++ ... ++ CODE(s_(n−1))` (R133). -/
def codesOf (T : Table) (syms : List Byte) : BitString := syms.flatMap fun sym => (T.read sym).getD []

/-- The k-th group of 8 bits of a bit-string, shorter at its end. -/
def group (k : Nat) (x : BitString) : BitString := (x.drop (8 * k)).take 8

/-- The bytes of the full groups of 8 bits, in order. -/
def fullBytes (x : BitString) : List Byte := (List.range (x.length / 8)).map fun k => byteOf (group k x)

/-- The bits after the last full group. -/
def restBits (x : BitString) : BitString := x.drop (8 * (x.length / 8))

/-- The bytes of R133: every group of 8 bits, the last completed by zero bits when it is shorter. -/
def packBits (x : BitString) : List Byte := (List.range ((x.length + 7) / 8)).map fun k => padToByte (group k x)

/-- What the source's BitUnpacker makes of some bits (R153): the symbols, the buffer it is left with, how many bits it
took, and whether the buffer grew longer than the longest code. -/
structure Unpacked where
  syms : List Byte
  buf : BitString
  used : Nat
  overflow : Bool
  deriving DecidableEq, Repr

/-- "after appending each new bit, check whether the buffer's current content exactly equals some code in the table;
if so, emit that symbol and clear the buffer" (`43_unpack.md`), with the overflow test of R153. An overflow empties
the buffer (R151) and leaves the bits after it. -/
def unpackBits (T : Table) : BitString → BitString → Unpacked
  | buf, [] => ⟨[], buf, 0, false⟩
  | buf, b :: rest =>
    match T.lowestMatch (buf ++ [b]) with
    | some sym =>
      let r := unpackBits T [] rest
      ⟨sym :: r.syms, r.buf, r.used + 1, r.overflow⟩
    | none =>
      if T.maxl < (buf ++ [b]).length then ⟨[], [], 1, true⟩
      else
        let r := unpackBits T (buf ++ [b]) rest
        ⟨r.syms, r.buf, r.used + 1, r.overflow⟩

end Sys2Proof.Safety
end

