-- ==== Sys2Proof/Certificates/Slice0/Obligations.lean ====
section
/-! DEFINITION. What is to be proved of the model: statements that come from the numbered rules of spec/. -/

open Sys2Proof Sys2Proof.Machine Sys2Proof.Safety

/-! ## Encoding -/

/-- R96: the six encoding examples, in both directions. -/
def Obligations.ExampleWordsDecode : Prop :=
  (encode (.tblLd 0x41 [false]) = [0x20410001, 0x00000000] ∧
    decode [0x20410001, 0x00000000] = .ok (.tblLd 0x41 [false], [])) ∧
  (encode (.tblLd 0x42 [true, true, false]) = [0x20420003, 0xC0000000] ∧
    decode [0x20420003, 0xC0000000] = .ok (.tblLd 0x42 [true, true, false], [])) ∧
  (∀ code, code = (List.replicate 16 [true, false]).flatten ++ [true, true] →
    encode (.tblLd 0x07 code) = [0x20070022, 0xAAAAAAAA, 0xC0000000] ∧
    decode [0x20070022, 0xAAAAAAAA, 0xC0000000] = .ok (.tblLd 0x07 code, [])) ∧
  (encode (.pkSym 0x41) = [0x40000041] ∧ decode [0x40000041] = .ok (.pkSym 0x41, [])) ∧
  (encode (.upTail 0xDC 7) = [0x800007DC] ∧ decode [0x800007DC] = .ok (.upTail 0xDC 7, [])) ∧
  (encode .upEnd = [0x90000000] ∧ decode [0x90000000] = .ok (.upEnd, []))

/-- Decoding an encoded well-formed command gives it back, with every word after it left (R81 to R87). -/
def Obligations.DecodeOfEncodeIsIdentity : Prop :=
  ∀ (i : Instr) (rest : List Word), i.WellFormed → decode (encode i ++ rest) = .ok (i, rest)

/-- R93: every header word is of exactly one row of the opcode map, and what the decoder reads from it is a well-formed
command of that row. A word that is not a `TBL_LD` header always decodes, and a `TBL_LD` header decodes when its
payload words are there. -/
def Obligations.EveryWordDecodesToOneRow : Prop :=
  ∀ (w : Word) (ws : List Word),
    (∃ k, k < 12 ∧ ∀ (j : Nat) (r : OpRow), opRows[j]? = some r → (r.fits w = true ↔ j = k)) ∧
    (∀ i rest, decode (w :: ws) = .ok (i, rest) →
      i.WellFormed ∧ ∃ r, opRows[i.rowIndex]? = some r ∧ r.fits w = true) ∧
    (opField w ≠ 2#4 → ∃ i, decode (w :: ws) = .ok (i, ws)) ∧
    (opField w = 2#4 → payloadCount (lenField w) ≤ ws.length →
      ∃ i, decode (w :: ws) = .ok (i, ws.drop (payloadCount (lenField w))))

/-- R90: the block steps from a header word exactly as from the same word with every reserved bit 0. -/
def Obligations.ReservedBitsAreIgnored : Prop :=
  ∀ (s : State) (w : Word) (ws : List Word),
    step { s with cq := (w &&& assignedMask w) :: ws } = step { s with cq := w :: ws }

/-- R86: bit `i` of the code is bit `31 − (i mod 32)` of payload word `i div 32`, for every `i` below LEN and no
other, so the payload bits past LEN take no part. -/
def Obligations.PayloadBitsBecomeTheCode : Prop :=
  ∀ (w : Word) (payload rest : List Word), opField w = 2#4 → payload.length = (lenField w + 31) / 32 →
    ∃ code, decode (w :: (payload ++ rest)) = .ok (.tblLd (loadSymField w) code, rest) ∧
      code.length = lenField w ∧
      ∀ i, i < lenField w → code[i]? = (payload[i / 32]?).map fun p => p.getLsbD (31 - i % 32)

/-- R94, the encodings of its table: every command's header is the opcode with the operands in their fields and 0
elsewhere. -/
def Obligations.EncodedHeaders : Prop :=
  encode .nop = [0x00000000] ∧ encode .tblClr = [0x10000000] ∧
  (∀ sym code, code.length < 256 → ∃ payload, payload.length = (code.length + 31) / 32 ∧
    encode (.tblLd sym code) =
      (0x20000000 ||| sym.setWidth 32 <<< 16 ||| BitVec.ofNat 32 code.length) :: payload) ∧
  encode .pkStart = [0x30000000] ∧ (∀ sym, encode (.pkSym sym) = [0x40000000 ||| sym.setWidth 32]) ∧
  encode .pkFlush = [0x50000000] ∧ encode .upStart = [0x60000000] ∧
  (∀ b, encode (.upByte b) = [0x70000000 ||| b.setWidth 32]) ∧
  (∀ b nv, encode (.upTail b nv) = [0x80000000 ||| nv.setWidth 32 <<< 8 ||| b.setWidth 32]) ∧
  encode .upEnd = [0x90000000]

/-- R12: `byte(x)` is `Σ x⟨i⟩ · 2^(7−i)`, `bits(b)` is `b[7], ..., b[0]`, and the two are inverse. -/
def Obligations.BytesAreBitsMostSignificantFirst : Prop :=
  (∀ x : BitString, x.length = 8 →
    (byteOf x).toNat = ((List.range 8).map fun i => (x.getD i false).toNat * 2 ^ (7 - i)).sum ∧
    bitsOf (byteOf x) = x) ∧
  (∀ b : Byte, byteOf (bitsOf b) = b ∧
    bitsOf b = [b.getLsbD 7, b.getLsbD 6, b.getLsbD 5, b.getLsbD 4, b.getLsbD 3, b.getLsbD 2, b.getLsbD 1,
      b.getLsbD 0])

/-- R95: what each pseudo-instruction expands to. -/
def Obligations.PseudoInstructionsExpand : Prop :=
  (∀ entries : List (Byte × BitString), ∃ sorted : List (Byte × BitString), sorted.Perm entries ∧
    sorted.Pairwise (fun a b => a.1.toNat ≤ b.1.toNat) ∧
    (AsmLine.tblLoad entries).words = encode .tblClr ++ sorted.flatMap fun e => encode (.tblLd e.1 e.2)) ∧
  (∀ bytes : List Byte, (AsmLine.pkBytes bytes).words = bytes.flatMap (fun b => encode (.pkSym b)) ∧
    (AsmLine.pkStream bytes).words =
      encode .pkStart ++ bytes.flatMap (fun b => encode (.pkSym b)) ++ encode .pkFlush) ∧
  (∀ pad : Nat, (AsmLine.upStream pad []).words = encode .upStart ++ encode .upEnd) ∧
  (∀ (pad : Nat) (bytes : List Byte) (last : Byte), (AsmLine.upStream pad (bytes ++ [last])).words =
    encode .upStart ++ bytes.flatMap (fun b => encode (.upByte b)) ++ encode (.upTail last (BitVec.ofNat 4 (8 - pad))) ++
      encode .upEnd)

/-! ## The step -/

/-- When the head of CQ decodes to a command and HALT = 0, the step is that command's meaning on the state in which the
command's words have left CQ and are counted in CMD_WORDS (R70, R100). -/
def Obligations.StepRunsDecodedCommand : Prop :=
  ∀ (s : State) (i : Instr) (rest : List Word), s.halt = false → decode s.cq = .ok (i, rest) →
    step s = exec i { s with cq := rest, cmdWords := s.cmdWords + BitVec.ofNat 32 i.words }

/-- R104: while HALT = 1 a step takes one word from CQ, whatever it is, and changes nothing else. The queue always
drains, and no event of the system but a reset clears HALT. -/
def Obligations.HaltedBlockDiscardsWords : Prop :=
  ∀ s : State, s.halt = true →
    (∀ w ws, s.cq = w :: ws → step s = .next { s with cq := ws }) ∧
    drained s = { s with cq := [] } ∧
    (∀ e t, sysStep e s = some t → t.halt = false → e = .host .reset)

/-- R100, R101: the block has no step exactly when CQ is empty, or HALT = 0 and the head of CQ is a TBL_LD whose payload
words are not all in CQ; in every other state it has a next state. That the two holds are the faults `idle` and
`awaitPayload` is the model's choice, log entry 1. -/
def Obligations.NoStepExactlyWhenWaiting : Prop :=
  ∀ s : State,
    (s.cq = [] → step s = .fault .idle) ∧
    (∀ w ws, s.cq = w :: ws → s.halt = false → opField w = 2#4 → ws.length < (lenField w + 31) / 32 →
      step s = .fault .awaitPayload) ∧
    (∀ w ws, s.cq = w :: ws → (s.halt = true ∨ opField w ≠ 2#4 ∨ (lenField w + 31) / 32 ≤ ws.length) →
      ∃ t, step s = .next t)

/-- R112: a step of a block that has not halted takes the command's words from CQ, all of them there, and counts them
in CMD_WORDS, `1 + ceil(LEN/32)` for a TBL_LD whatever its outcome, 1 for every other command. -/
def Obligations.StepConsumesTheCommandsWords : Prop :=
  ∀ s t : State, s.halt = false → step s = .next t →
    ∃ w ws n, s.cq = w :: ws ∧ n = (if opField w = 2#4 then 1 + (lenField w + 31) / 32 else 1) ∧
      n ≤ s.cq.length ∧ t.cq = s.cq.drop n ∧ t.cmdWords = s.cmdWords + BitVec.ofNat 32 n

/-- R101: every command, with every operand, completes from every state. -/
def Obligations.EveryCommandCompletes : Prop :=
  ∀ (i : Instr) (s : State), ∃ t, exec i s = .next t

/-! ## NOP and the reserved opcodes -/

/-- R102: NOP changes nothing, a NOP with reserved bits set is NOP, and from reset it leaves every register at 0 but
CMD_WORDS at 1. -/
def Obligations.NopChangesNothing : Prop :=
  (∀ s : State, exec .nop s = .next s) ∧ decode [0x0FFFFFFF] = .ok (.nop, []) ∧
  ∃ t, step { State.reset with cq := [0x00000000] } = .next t ∧
    ∀ idx : BitVec 4, readReg idx t = if idx = 8 then 1 else 0

/-- R103: a reserved opcode sets HALT and changes nothing else; its step counts the word, whatever its other 28 bits. -/
def Obligations.ReservedOpcodeHalts : Prop :=
  (∀ (op : BitVec 4) (s : State), exec (.reservedAB op) s = .next { s with halt := true } ∧
    exec (.reservedCF op) s = .next { s with halt := true }) ∧
  (∀ (s : State) (w : Word) (ws : List Word), s.halt = false → s.cq = w :: ws → 0xA#4 ≤ opField w →
    step s = .next { s with halt := true, cq := ws, cmdWords := s.cmdWords + 1 })

/-! ## The code table -/

/-- R110: TBL_CLR leaves an empty table and no table error, TBL_INFO 0, and touches neither engine. An unpack job goes on
against the empty table and overflows at its next bit. -/
def Obligations.TblClrEmptiesTheTable : Prop :=
  ∀ s : State, ∃ t, exec .tblClr s = .next t ∧ (∀ sym, t.table.read sym = none) ∧
    t.tblErr = 0 ∧ t.tblSub = 0 ∧ t.tblErrSym = 0 ∧ readReg 1 t = 0 ∧
    SamePk s t ∧ SameUp s t ∧ SameCtl s t ∧
    (s.upErr = 0 → ∀ b, ∃ u, exec (.upByte b) t = .next u ∧ u.upErr = 3 ∧ u.upSub = 1 ∧
      u.upBits = s.upBits + 1 ∧ u.upo = s.upo)

/-- TBL_LD without an error makes the entry of its symbol valid with its code, and changes nothing else (R111). -/
def Obligations.TblLdWritesOneEntry : Prop :=
  ∀ (s : State) (sym : Byte) (code : BitString), s.tblErr = 0 → 1 ≤ code.length → code.length ≤ 255 →
    s.table.read sym = none →
    ∃ t, exec (.tblLd sym code) s = .next t ∧ t.table.read sym = some code ∧
      (∀ other, other ≠ sym → t.table.read other = s.table.read other) ∧
      t.tblErr = 0 ∧ t.tblSub = s.tblSub ∧ t.tblErrSym = s.tblErrSym ∧
      SamePk s t ∧ SameUp s t ∧ SameCtl s t

/-- R113: the three checks, in their order, for a build with any MAX_CODE_LEN; and in this hardware, whose bound is 255,
CODE_TOO_LONG never fires for a command a word can spell. -/
def Obligations.TblLdChecksInOrder : Prop :=
  (∀ (maxLen : Nat) (s : State) (sym : Byte) (code : BitString), s.tblErr = 0 →
    (code.length = 0 → (tblLoad maxLen sym code s).tblErr = 2 ∧ (tblLoad maxLen sym code s).tblSub = 1 ∧
      (tblLoad maxLen sym code s).tblErrSym = sym) ∧
    (0 < code.length → maxLen < code.length → (tblLoad maxLen sym code s).tblErr = 2 ∧
      (tblLoad maxLen sym code s).tblSub = 2 ∧ (tblLoad maxLen sym code s).tblErrSym = sym) ∧
    (0 < code.length → code.length ≤ maxLen → s.table.read sym ≠ none → (tblLoad maxLen sym code s).tblErr = 2 ∧
      (tblLoad maxLen sym code s).tblSub = 3 ∧ (tblLoad maxLen sym code s).tblErrSym = sym) ∧
    (0 < code.length → code.length ≤ maxLen → s.table.read sym = none → (tblLoad maxLen sym code s).tblErr = 0)) ∧
  (∀ (s t : State) (sym : Byte) (code : BitString), (Instr.tblLd sym code).WellFormed →
    exec (.tblLd sym code) s = .next (tblLoad 255 sym code s) ∧
    (exec (.tblLd sym code) s = .next t → s.tblSub ≠ 2 → t.tblSub ≠ 2))

/-- R114: a table error leaves no entry valid and records the symbol. Later lookups see an empty table: PK_SYM raises
UNKNOWN_SYMBOL, and the first unpack bit raises DECODE/OVERFLOW. -/
def Obligations.TableErrorPoisonsTheTable : Prop :=
  ∀ (s t : State) (sym : Byte) (code : BitString), s.tblErr = 0 → exec (.tblLd sym code) s = .next t →
    t.tblErr ≠ 0 →
    t.tblErr = 2 ∧ t.tblSub = (if code.length = 0 then 1 else if 255 < code.length then 2 else 3) ∧
    t.tblErrSym = sym ∧ (∀ other, t.table.read other = none) ∧
    SamePk s t ∧ SameUp s t ∧ SameCtl s t ∧
    (s.pkErr = 0 → ∀ b, ∃ u, exec (.pkSym b) t = .next u ∧ u.pkErr = 1 ∧ u.pkBadSym = b ∧ u.pko = s.pko) ∧
    (s.upErr = 0 → ∀ b, ∃ u, exec (.upByte b) t = .next u ∧ u.upErr = 3 ∧ u.upSub = 1 ∧
      u.upBits = s.upBits + 1 ∧ u.upo = s.upo)

/-- R115: while TBL_ERR ≠ 0 a TBL_LD writes nothing and raises nothing, and its payload is consumed; only TBL_CLR or
reset ends that. -/
def Obligations.PoisonedTableIgnoresLoads : Prop :=
  ∀ s : State, s.tblErr ≠ 0 →
    (∀ sym code, exec (.tblLd sym code) s = .next s) ∧
    (∀ sym code rest, s.halt = false → decode s.cq = .ok (.tblLd sym code, rest) →
      step s = .next { s with cq := rest, cmdWords := s.cmdWords + BitVec.ofNat 32 (1 + (code.length + 31) / 32) }) ∧
    (∀ e t, sysStep e s = some t → t.tblErr = 0 →
      e = .host .reset ∨ (e = .block ∧ ∃ rest, decode s.cq = .ok (.tblClr, rest)))

/-- R117: loads of different symbols without an error give, after TBL_CLR, the same state in every order, and that state
holds exactly the loaded codes. -/
def Obligations.LoadOrderDoesNotMatter : Prop :=
  ∀ (s : State) (l1 l2 : List (Byte × BitString)), l1.Perm l2 → (l1.map Prod.fst).Nodup →
    (∀ e ∈ l1, 1 ≤ e.2.length ∧ e.2.length ≤ 255) →
    ∃ t, runCmds (asmTblLoad l1) s = .next t ∧ runCmds (asmTblLoad l2) s = .next t ∧ t.tblErr = 0 ∧
      ∀ sym code, t.table.read sym = some code ↔ (sym, code) ∈ l1

/-! ## The pack engine -/

/-- R134: PK_START empties the bit buffer without emitting it, clears PAD, the counters and the error, and changes nothing
else: PKO keeps its bytes. PK_BUF, PK_SYMS and PK_BYTES then read 0. -/
def Obligations.PkStartBeginsAJob : Prop :=
  ∀ s : State, ∃ t, exec .pkStart s = .next t ∧
    t = { s with pkAcc := [], pkPad := 0, pkSyms := 0, pkBytes := 0, pkErr := 0, pkSub := 0, pkBadSym := 0 } ∧
    readReg 2 t = 0 ∧ readReg 3 t = 0 ∧ readReg 4 t = 0

/-- PK_SYM of a valid symbol pushes the full bytes of the waiting bits and the code, counts them and the symbol, keeps the
bits after them, and changes nothing else (R132, R135). At most 7 bits wait in every reachable state, `Inv`. -/
def Obligations.PkSymAppendsTheCode : Prop :=
  ∀ (s : State) (sym : Byte) (code : BitString), s.pkErr = 0 → s.table.read sym = some code → s.pkAcc.length ≤ 7 →
    ∃ t, exec (.pkSym sym) s = .next t ∧
      t.pko = s.pko ++ fullBytes (s.pkAcc ++ code) ∧ t.pkAcc = restBits (s.pkAcc ++ code) ∧ t.pkAcc.length ≤ 7 ∧
      t.pkBytes = s.pkBytes + BitVec.ofNat 32 ((s.pkAcc.length + code.length) / 8) ∧ t.pkSyms = s.pkSyms + 1 ∧
      t.pkPad = s.pkPad ∧ t.pkErr = 0 ∧ t.pkSub = s.pkSub ∧ t.pkBadSym = s.pkBadSym ∧
      SameTbl s t ∧ SameUp s t ∧ SameCtl s t

/-- R131: PK_SYM of a symbol without a code records UNKNOWN_SYMBOL and the symbol, empties the bit buffer, and changes
nothing else: no byte is pushed, and the counters and PAD keep their values. -/
def Obligations.PkSymUnknownSymbol : Prop :=
  ∀ (s : State) (sym : Byte), s.pkErr = 0 → s.table.read sym = none →
    exec (.pkSym sym) s = .next { s with pkErr := 1, pkSub := 0, pkBadSym := sym, pkAcc := [] }

/-- R130: while PK_ERR ≠ 0, PK_SYM and PK_FLUSH change nothing, and only PK_START or reset clears PK_ERR. -/
def Obligations.FailedPackEngineIgnoresCommands : Prop :=
  ∀ s : State, s.pkErr ≠ 0 →
    (∀ sym, exec (.pkSym sym) s = .next s) ∧ exec .pkFlush s = .next s ∧
    (∀ e t, sysStep e s = some t → t.pkErr = 0 →
      e = .host .reset ∨ (e = .block ∧ ∃ rest, decode s.cq = .ok (.pkStart, rest)))

/-- R137: PK_FLUSH with no waiting bit sets PAD to 0 and pushes nothing. Otherwise it pushes the waiting bits completed by
zero bits, counts the byte, sets PAD to the number of zero bits, 1 to 7, and empties the buffer. Nothing else changes. -/
def Obligations.PkFlushPadsTheLastByte : Prop :=
  ∀ s : State, s.pkErr = 0 →
    (s.pkAcc = [] → exec .pkFlush s = .next { s with pkPad := 0 }) ∧
    (s.pkAcc ≠ [] → s.pkAcc.length ≤ 7 → ∃ t, exec .pkFlush s = .next t ∧
      t = { s with pko := s.pko ++ [byteOf (s.pkAcc ++ List.replicate (8 - s.pkAcc.length) false)],
                   pkBytes := s.pkBytes + 1, pkPad := 8 - s.pkAcc.length, pkAcc := [] } ∧
      1 ≤ t.pkPad ∧ t.pkPad ≤ 7)

/-- R133, the packing law: a pack job of symbols that all have codes pushes exactly the bytes of their concatenated codes,
the last completed by zero bits, with the PAD and the counts of the rule; nothing but the pack engine changes. -/
def Obligations.PackingLaw : Prop :=
  ∀ (s : State) (syms : List Byte), Covers s.table syms →
    ∃ t, runCmds (asmPkStream syms) s = .next t ∧
      t.pko = s.pko ++ packBits (codesOf s.table syms) ∧
      (packBits (codesOf s.table syms)).length = ((codesOf s.table syms).length + 7) / 8 ∧
      t.pkPad = (8 - (codesOf s.table syms).length % 8) % 8 ∧
      t.pkSyms = BitVec.ofNat 32 syms.length ∧
      t.pkBytes = BitVec.ofNat 32 (((codesOf s.table syms).length + 7) / 8) ∧
      t.pkErr = 0 ∧ t.pkAcc = [] ∧ SameTbl s t ∧ SameUp s t ∧ SameCtl s t

/-- A PK_SYM after PK_FLUSH goes on with the same job: its bits start a new byte, so the stream is two byte-aligned
segments, the counters keep counting, and only the last pad count stays (R140). -/
def Obligations.SymbolsAfterAFlushStartANewByte : Prop :=
  ∀ (s : State) (syms more : List Byte), Covers s.table syms → Covers s.table more →
    ∃ t, runCmds (asmPkStream syms ++ asmPkBytes more ++ [.pkFlush]) s = .next t ∧
      t.pko = s.pko ++ packBits (codesOf s.table syms) ++ packBits (codesOf s.table more) ∧
      t.pkPad = (8 - (codesOf s.table more).length % 8) % 8 ∧
      t.pkSyms = BitVec.ofNat 32 (syms.length + more.length) ∧
      t.pkBytes = BitVec.ofNat 32 (((codesOf s.table syms).length + 7) / 8 + ((codesOf s.table more).length + 7) / 8) ∧
      t.pkErr = 0 ∧ t.pkAcc = [] ∧ SameTbl s t ∧ SameUp s t ∧ SameCtl s t

/-- R138 and R162: an empty pack job pushes no byte and leaves PAD = 0; an empty unpack job pushes nothing and leaves no
error, with any table. -/
def Obligations.EmptyJobsPushNothing : Prop :=
  ∀ s : State,
    (∃ t, runCmds [.pkStart, .pkFlush] s = .next t ∧ t.pko = s.pko ∧ t.pkPad = 0 ∧ t.pkErr = 0) ∧
    (∃ t, runCmds [.upStart, .upEnd] s = .next t ∧ t.upo = s.upo ∧ t.upErr = 0)

/-! ## The unpack engine -/

/-- R155: UP_START discards a partial code, clears the counters and the error, and changes nothing else: UPO keeps its
symbols. UP_BUF, UP_SYMS and UP_BITS then read 0, and so do STATUS bits 23:16. -/
def Obligations.UpStartBeginsAJob : Prop :=
  ∀ s : State, ∃ t, exec .upStart s = .next t ∧
    t = { s with upBuf := [], upSyms := 0, upBits := 0, upErr := 0, upSub := 0 } ∧
    readReg 5 t = 0 ∧ readReg 6 t = 0 ∧ readReg 7 t = 0 ∧ (readReg 0 t).extractLsb' 16 8 = 0

/-- R152: the lookup finds a symbol exactly when its code is the string and no lower symbol's is, and nothing exactly when
no symbol's code is the string. In a prefix-free table at most one symbol's code is the string. -/
def Obligations.LookupFindsTheLowestSymbol : Prop :=
  ∀ (T : Table) (x : BitString),
    (∀ sym, T.lowestMatch x = some sym ↔
      T.read sym = some x ∧ ∀ other, T.read other = some x → sym.toNat ≤ other.toNat) ∧
    (T.lowestMatch x = none ↔ ∀ sym, T.read sym ≠ some x) ∧
    (PrefixFree T → ∀ a b, T.read a = some x → T.read b = some x → a = b)

/-- R153: one stream bit. A match emits the lowest symbol and empties the buffer; no match with more bits than MAXL is
DECODE/OVERFLOW, which empties the buffer and stops; otherwise the bit waits. The bit is counted in every case, and a match
is never longer than MAXL. -/
def Obligations.OneBitMatchesOverflowsOrWaits : Prop :=
  ∀ (b : Bool) (s : State),
    (∀ sym, s.table.lowestMatch (s.upBuf ++ [b]) = some sym →
      upBit b s = .ok { s with upBuf := [], upBits := s.upBits + 1, upo := s.upo ++ [sym], upSyms := s.upSyms + 1 } ∧
      s.upBuf.length + 1 ≤ s.table.maxl) ∧
    (s.table.lowestMatch (s.upBuf ++ [b]) = none → s.table.maxl < s.upBuf.length + 1 →
      upBit b s = .stop { s with upBuf := [], upBits := s.upBits + 1, upErr := 3, upSub := 1 }) ∧
    (s.table.lowestMatch (s.upBuf ++ [b]) = none → s.upBuf.length + 1 ≤ s.table.maxl →
      upBit b s = .ok { s with upBuf := s.upBuf ++ [b], upBits := s.upBits + 1 })

/-- UP_BYTE gives the 8 bits of its byte, bit 7 first, to the source's unpacker: the symbols it emits are pushed and
counted, the bits it takes are counted, its buffer stays for the next command, and an overflow is DECODE/OVERFLOW. Nothing
but the unpack engine changes (R153, R156, R185). -/
def Obligations.UpByteUnpacksEightBits : Prop :=
  ∀ (s : State) (b : Byte), s.upErr = 0 →
    ∀ r, r = unpackBits s.table s.upBuf [b.getLsbD 7, b.getLsbD 6, b.getLsbD 5, b.getLsbD 4, b.getLsbD 3,
      b.getLsbD 2, b.getLsbD 1, b.getLsbD 0] →
    ∃ t, exec (.upByte b) s = .next t ∧ t.upBuf = r.buf ∧ t.upo = s.upo ++ r.syms ∧
      t.upSyms = s.upSyms + BitVec.ofNat 32 r.syms.length ∧ t.upBits = s.upBits + BitVec.ofNat 32 r.used ∧
      (r.overflow = false → t.upErr = 0 ∧ t.upSub = s.upSub ∧ r.used = 8) ∧
      (r.overflow = true → t.upErr = 3 ∧ t.upSub = 1 ∧ t.upBuf = []) ∧
      SameTbl s t ∧ SamePk s t ∧ SameCtl s t

/-- R157: UP_TAIL with NV from 1 to 8 gives the first NV bits of its byte to the unpacker as UP_BYTE gives all of them, and
the other bits take no part; NV = 8 is UP_BYTE. Any other NV is ILLEGAL_COMMAND/BAD_NV before any bit. -/
def Obligations.UpTailUnpacksTheValidBits : Prop :=
  ∀ (s : State) (b : Byte) (nv : BitVec 4), s.upErr = 0 →
    (1 ≤ nv.toNat → nv.toNat ≤ 8 →
      ∀ r, r = unpackBits s.table s.upBuf ((List.range nv.toNat).map fun i => b.getLsbD (7 - i)) →
      ∃ t, exec (.upTail b nv) s = .next t ∧ t.upBuf = r.buf ∧ t.upo = s.upo ++ r.syms ∧
        t.upSyms = s.upSyms + BitVec.ofNat 32 r.syms.length ∧ t.upBits = s.upBits + BitVec.ofNat 32 r.used ∧
        (r.overflow = false → t.upErr = 0 ∧ t.upSub = s.upSub ∧ r.used = nv.toNat) ∧
        (r.overflow = true → t.upErr = 3 ∧ t.upSub = 1 ∧ t.upBuf = []) ∧
        SameTbl s t ∧ SamePk s t ∧ SameCtl s t) ∧
    (nv.toNat = 0 ∨ 8 < nv.toNat →
      exec (.upTail b nv) s = .next { s with upErr := 4, upSub := 1, upBuf := [] }) ∧
    exec (.upTail b 8) s = exec (.upByte b) s

/-- R150: while UP_ERR ≠ 0, UP_BYTE, UP_TAIL, even with an illegal NV, and UP_END change nothing, and only UP_START or
reset clears UP_ERR. -/
def Obligations.FailedUnpackEngineIgnoresCommands : Prop :=
  ∀ s : State, s.upErr ≠ 0 →
    (∀ b, exec (.upByte b) s = .next s) ∧ (∀ b nv, exec (.upTail b nv) s = .next s) ∧ exec .upEnd s = .next s ∧
    (∀ e t, sysStep e s = some t → t.upErr = 0 →
      e = .host .reset ∨ (e = .block ∧ ∃ rest, decode s.cq = .ok (.upStart, rest)))

/-- R158: UP_END with an empty buffer changes nothing, a second time too; with bits left it is DECODE/LEFTOVER, which
empties the buffer. -/
def Obligations.UpEndChecksForLeftoverBits : Prop :=
  ∀ s : State, s.upErr = 0 →
    (s.upBuf = [] → exec .upEnd s = .next s ∧ runCmds [.upEnd, .upEnd] s = .next s) ∧
    (s.upBuf ≠ [] → exec .upEnd s = .next { s with upErr := 3, upSub := 2, upBuf := [] })

/-- R165: in a table that is not prefix-free, a symbol whose code has another symbol's code as a proper prefix, or whose
code is a lower symbol's code too, is never emitted from an empty buffer. -/
def Obligations.ShadowedSymbolsAreNeverEmitted : Prop :=
  ∀ (T : Table) (a b : Byte) (ca cb x : BitString), T.read a = some ca → T.read b = some cb → ca ≠ [] →
    ((ca <+: cb ∧ ca ≠ cb) ∨ (ca = cb ∧ a.toNat < b.toNat)) → b ∉ (unpackBits T [] x).syms

/-- R160, the round-trip law: with a prefix-free table of non-empty codes, the unpack job of the bytes and PAD of a pack
job pushes exactly the packed symbols and ends without an error, with the counts of R159 and R163; nothing but the unpack
engine changes. -/
def Obligations.RoundTripLaw : Prop :=
  ∀ (s t u : State) (syms bytes : List Byte), PrefixFree s.table →
    (∀ sym code, s.table.read sym = some code → code ≠ []) → Covers s.table syms →
    runCmds (asmPkStream syms) s = .next t → t.pko = s.pko ++ bytes → u.table = s.table →
    ∃ v, runCmds (asmUpStream t.pkPad bytes) u = .next v ∧ v.upo = u.upo ++ syms ∧ v.upErr = 0 ∧ v.upBuf = [] ∧
      v.upSyms = BitVec.ofNat 32 syms.length ∧ v.upBits = 8 * t.pkBytes - BitVec.ofNat 32 t.pkPad ∧
      SameTbl u v ∧ SamePk u v ∧ SameCtl u v

/-! ## Errors -/

/-- R184: raising an error writes the engine's code and sub-code and its recorded value and applies the engine's own
clearing, and no other engine's state changes. -/
def Obligations.RaisingAnErrorRecordsIt : Prop :=
  ∀ (e : Err) (s : State),
    (e.engine = .tbl → raiseErr e s =
      { s with tblErr := e.code, tblSub := e.sub, tblErrSym := e.info.getD 0, table := emptyTable } ∧
      ∃ sym, e.info = some sym) ∧
    (e.engine = .pk → raiseErr e s =
      { s with pkErr := e.code, pkSub := e.sub, pkBadSym := e.info.getD 0, pkAcc := [] } ∧ ∃ sym, e.info = some sym) ∧
    (e.engine = .up → raiseErr e s = { s with upErr := e.code, upSub := e.sub, upBuf := [] } ∧ e.info = none)

/-- The STATUS word after each single error from reset (R38, R181, vector X1 of `95_test_vectors.md`). CODE_TOO_LONG is
that of a build whose MAX_CODE_LEN is smaller. -/
def Obligations.StatusAfterEachError : Prop :=
  (∀ sym, ∃ t, exec (.pkSym sym) State.reset = .next t ∧ readReg 0 t = 0x00000100) ∧
  (∀ sym, ∃ t, exec (.tblLd sym []) State.reset = .next t ∧ readReg 0 t = 0x00000012) ∧
  (∀ sym maxLen code, maxLen < code.length → readReg 0 (tblLoad maxLen sym code State.reset) = 0x00000022) ∧
  (∀ sym b c, ∃ t, runCmds [.tblLd sym [b], .tblLd sym [c]] State.reset = .next t ∧ readReg 0 t = 0x00000032) ∧
  (∀ b, ∃ t, exec (.upByte b) State.reset = .next t ∧ readReg 0 t = 0x00130000) ∧
  (∀ sym, ∃ t, runCmds [.tblLd sym [true, true], .upTail 0xFF 1, .upEnd] State.reset = .next t ∧
    readReg 0 t = 0x00230000) ∧
  (∀ b, ∃ t, exec (.upTail b 0) State.reset = .next t ∧ readReg 0 t = 0x00140000) ∧
  (∀ op, ∃ t, exec (.reservedAB op) State.reset = .next t ∧ readReg 0 t = 0x01000000)

/-- R182: which commands raise which errors. -/
def Obligations.OnlyTheNamedCommandsRaiseErrors : Prop :=
  ∀ (i : Instr) (s t : State), exec i s = .next t →
    (s.tblErr = 0 → t.tblErr ≠ 0 → t.tblErr = 2 ∧ ∃ sym code, i = .tblLd sym code) ∧
    (s.pkErr = 0 → t.pkErr ≠ 0 → t.pkErr = 1 ∧ ∃ sym, i = .pkSym sym) ∧
    (s.upErr = 0 → t.upErr ≠ 0 →
      (t.upErr = 3 ∧ t.upSub = 1 ∧ ((∃ b, i = .upByte b) ∨ ∃ b nv, i = .upTail b nv)) ∨
      (t.upErr = 3 ∧ t.upSub = 2 ∧ i = .upEnd) ∨ (t.upErr = 4 ∧ t.upSub = 1 ∧ ∃ b nv, i = .upTail b nv)) ∧
    (s.halt = false → t.halt = true → isReserved i = true)

/-- R187: what clears each error field, and that nothing else does; HALT is cleared only by reset. -/
def Obligations.ErrorsAreClearedOnlyByTheirStart : Prop :=
  (∀ s : State,
    (∃ t, exec .pkStart s = .next t ∧ t.pkErr = 0 ∧ t.pkSub = 0 ∧ t.pkBadSym = 0 ∧ t.pkAcc = [] ∧
      t.pkSyms = 0 ∧ t.pkBytes = 0) ∧
    (∃ t, exec .upStart s = .next t ∧ t.upErr = 0 ∧ t.upSub = 0 ∧ t.upBuf = [] ∧ t.upSyms = 0 ∧ t.upBits = 0) ∧
    (∃ t, exec .tblClr s = .next t ∧ t.tblErr = 0 ∧ t.tblSub = 0 ∧ t.tblErrSym = 0 ∧ t.table = emptyTable) ∧
    (∃ t, sysStep (.host .reset) s = some t ∧ t.tblErr = 0 ∧ t.pkErr = 0 ∧ t.upErr = 0 ∧ t.halt = false)) ∧
  (∀ (e : Event) (s t : State), sysStep e s = some t → e ≠ .host .reset →
    (s.pkErr ≠ 0 → t.pkErr = 0 → ∃ rest, decode s.cq = .ok (.pkStart, rest)) ∧
    (s.upErr ≠ 0 → t.upErr = 0 → ∃ rest, decode s.cq = .ok (.upStart, rest)) ∧
    (s.tblErr ≠ 0 → t.tblErr = 0 → ∃ rest, decode s.cq = .ok (.tblClr, rest)) ∧
    (s.halt = true → t.halt = true))

/-- R188: an engine that has failed keeps its first error, and all its other state, until its START, or TBL_CLR for the
table. All three engines may have failed at once. -/
def Obligations.FirstErrorIsKept : Prop :=
  (∀ (i : Instr) (s t : State), exec i s = .next t →
    (s.pkErr ≠ 0 → i ≠ .pkStart → SamePk s t) ∧ (s.upErr ≠ 0 → i ≠ .upStart → SameUp s t) ∧
    (s.tblErr ≠ 0 → i ≠ .tblClr → SameTbl s t)) ∧
  ∃ t, runCmds [.tblLd 0x41 [], .pkSym 0x41, .upByte 0x00] State.reset = .next t ∧
    t.tblErr = 2 ∧ t.pkErr = 1 ∧ t.upErr = 3

/-! ## Whole-machine rules -/

/-- R107: each engine's commands change only that engine's state, and what they make of it depends only on it and on
T: two states that agree there still agree there after the command. -/
def Obligations.EnginesAreIndependent : Prop :=
  ∀ (i : Instr) (s t : State), exec i s = .next t →
    (isPk i = true → SameTbl s t ∧ SameUp s t ∧ SameCtl s t ∧
      ∀ s' t', exec i s' = .next t' → s'.table = s.table → SamePk s s' → SamePk t t') ∧
    (isUp i = true → SameTbl s t ∧ SamePk s t ∧ SameCtl s t ∧
      ∀ s' t', exec i s' = .next t' → s'.table = s.table → SameUp s s' → SameUp t t') ∧
    (isTbl i = true → SamePk s t ∧ SameUp s t ∧ SameCtl s t ∧
      ∀ s' t', exec i s' = .next t' → SameTbl s s' → SameTbl t t')

/-- A pack command and an unpack command give the same state in either order: the jobs may be interleaved (R107). -/
def Obligations.PackAndUnpackCommandsCommute : Prop :=
  ∀ (p u : Instr) (s : State), isPk p = true → isUp u = true → runCmds [p, u] s = runCmds [u, p] s

/-- Output queues only grow at their tail, PKO by PK_SYM and PK_FLUSH alone and UPO by UP_BYTE and UP_TAIL alone, and by no
more than the most bytes R66 names for the command: 32, 1, 8 and 8 (R62, R66). -/
def Obligations.OutputQueuesOnlyGrow : Prop :=
  ∀ (i : Instr) (s t : State), Inv s → exec i s = .next t →
    ∃ bs cs, t.pko = s.pko ++ bs ∧ t.upo = s.upo ++ cs ∧
      bs.length ≤ maxPushPko i ∧ cs.length ≤ maxPushUpo i ∧
      t.pkBytes = (if i = .pkStart then 0 else s.pkBytes + BitVec.ofNat 32 bs.length) ∧
      t.upSyms = (if i = .upStart then 0 else s.upSyms + BitVec.ofNat 32 cs.length)

/-- With the start condition of R66, a step never takes an output queue over OUT_FIFO_DEPTH = `depth`; and with a legal
depth, 32 or more, a block whose output queues are empty starts whenever it has a step. -/
def Obligations.RoomConditionKeepsQueuesBounded : Prop :=
  ∀ (depth : Nat) (s t : State), Inv s → step s = .next t →
    (canStart depth s = true → s.pko.length ≤ depth → s.upo.length ≤ depth →
      t.pko.length ≤ depth ∧ t.upo.length ≤ depth) ∧
    (32 ≤ depth → s.pko = [] → s.upo = [] → canStart depth s = true)

/-- A queue of encoded commands, none reserved, runs as the commands one after another: the machine that fetches from CQ
refines the command sequence, and each command takes one step (R70, R71, R109). -/
def Obligations.QueueRunsAsTheCommandSequence : Prop :=
  ∀ (is : List Instr) (s t : State) (rest : List Word), s.halt = false →
    (∀ i ∈ is, i.WellFormed ∧ isReserved i = false) → s.cq = is.flatMap encode ++ rest →
    runCmds is s = .next t →
    core.run is.length s = .next { t with cq := rest, cmdWords := s.cmdWords + BitVec.ofNat 32 (is.map Instr.words).sum }

/-- The run of a word sequence that ends partway through a TBL_LD never ends, and that of whole commands, none reserved, ends
with the results of the commands from reset (R109). -/
def Obligations.RunEndsExactlyWithWholeCommands : Prop :=
  ∀ is : List Instr, (∀ i ∈ is, i.WellFormed ∧ isReserved i = false) →
    (∀ w ws, opField w = 2#4 → ws.length < (lenField w + 31) / 32 → runWords (is.flatMap encode ++ w :: ws) = none) ∧
    (∃ t r, runCmds is State.reset = .next t ∧ runWords (is.flatMap encode) = some r ∧
      r.pko = t.pko ∧ r.upo = t.upo ∧ r.regs[0]? = some (readReg 0 t) ∧
      r.regs[8]? = some (BitVec.ofNat 32 (is.map Instr.words).sum))

/-! ## The register bank and the host -/

/-- R38: the fields of STATUS, its unassigned bits, its reset value and the legal values of its fields. -/
def Obligations.StatusFields : Prop :=
  readReg 0 State.reset = 0 ∧
  ∀ s : State, (readReg 0 s).extractLsb' 0 4 = s.tblErr ∧ (readReg 0 s).extractLsb' 4 4 = s.tblSub ∧
    (readReg 0 s).extractLsb' 8 4 = s.pkErr ∧ (readReg 0 s).extractLsb' 12 4 = s.pkSub ∧
    (readReg 0 s).extractLsb' 16 4 = s.upErr ∧ (readReg 0 s).extractLsb' 20 4 = s.upSub ∧
    (readReg 0 s).getLsbD 24 = s.halt ∧ (readReg 0 s).extractLsb' 25 7 = 0 ∧
    (Inv s → (s.tblErr = 0 ∨ s.tblErr = 2) ∧ s.tblSub ≤ 3 ∧ (s.pkErr = 0 ∨ s.pkErr = 1) ∧ s.pkSub = 0 ∧
      (s.upErr = 0 ∨ s.upErr = 3 ∨ s.upErr = 4) ∧ s.upSub ≤ 2)

/-- R25 and R39: TBL_INFO shows how many symbols have a code, the length of the longest code, and TBL_ERRSYM. -/
def Obligations.TblInfoFields : Prop :=
  readReg 1 State.reset = 0 ∧
  ∀ s : State,
    ((readReg 1 s).extractLsb' 0 9).toNat =
      (List.range 256).countP (fun k => (s.table.read (BitVec.ofNat 8 k)).isSome) ∧
    (readReg 1 s).extractLsb' 9 7 = 0 ∧ (readReg 1 s).extractLsb' 24 8 = s.tblErrSym ∧
    (TableOk s.table → ∀ m, m = ((readReg 1 s).extractLsb' 16 8).toNat →
      (∀ sym code, s.table.read sym = some code → code.length ≤ m) ∧
      (m = 0 ∨ ∃ sym code, s.table.read sym = some code ∧ code.length = m))

/-- R40: PK_BUF shows the number of waiting bits, the bits left-aligned with zeros after them, PAD and PK_BADSYM; its ACC
field is the byte a PK_FLUSH would push. -/
def Obligations.PkBufFields : Prop :=
  readReg 2 State.reset = 0 ∧
  ∀ s : State, s.pkAcc.length ≤ 7 → s.pkPad ≤ 7 →
    ((readReg 2 s).extractLsb' 0 4).toNat = s.pkAcc.length ∧ (readReg 2 s).extractLsb' 4 4 = 0 ∧
    (∀ i, i < 8 → (readReg 2 s).getLsbD (15 - i) = s.pkAcc.getD i false) ∧
    ((readReg 2 s).extractLsb' 16 4).toNat = s.pkPad ∧ (readReg 2 s).extractLsb' 20 4 = 0 ∧
    (readReg 2 s).extractLsb' 24 8 = s.pkBadSym ∧
    (s.pkErr = 0 → s.pkAcc ≠ [] → ∃ t, exec .pkFlush s = .next t ∧
      t.pko = s.pko ++ [(readReg 2 s).extractLsb' 8 8])

/-- R41, R42, R43 and R45: the counter registers, UP_BUF, which shows only a length, and the reserved indices. -/
def Obligations.CounterAndReservedRegisters : Prop :=
  (∀ idx : BitVec 4, readReg idx State.reset = 0) ∧
  ∀ s : State, readReg 3 s = s.pkSyms ∧ readReg 4 s = s.pkBytes ∧ readReg 6 s = s.upSyms ∧
    readReg 7 s = s.upBits ∧ readReg 8 s = s.cmdWords ∧ (∀ idx : BitVec 4, 9 ≤ idx.toNat → readReg idx s = 0 ∧
      (s.cq = [] → hostStep (.read idx) s = some (s, .value 0))) ∧
    (s.upBuf.length ≤ 255 → (readReg 5 s).toNat = s.upBuf.length)

/-- The host's actions, each with the condition under which it is enabled and its whole effect (R36, R61, R62, R108,
R200). -/
def Obligations.HostActions : Prop :=
  ∀ s : State,
    (∀ w, hostStep (.write w) s = some ({ s with cq := s.cq ++ [w] }, .done)) ∧
    (s.pko = [] → hostStep .popPko s = none) ∧
    (∀ b bs, s.pko = b :: bs → hostStep .popPko s = some ({ s with pko := bs }, .byte b)) ∧
    (s.upo = [] → hostStep .popUpo s = none) ∧
    (∀ b bs, s.upo = b :: bs → hostStep .popUpo s = some ({ s with upo := bs }, .byte b)) ∧
    (∀ idx, s.cq = [] → hostStep (.read idx) s = some (s, .value (readReg idx s))) ∧
    (∀ idx, s.cq ≠ [] → hostStep (.read idx) s = none) ∧
    hostStep .reset s = some (State.reset, .done)

/-- R72: a register read drains the queue. Some steps of the block lead to a state without a step; the read returns the
register there when CQ is empty, and otherwise waits behind a TBL_LD whose payload words are not all there. A pop does
not wait. -/
def Obligations.RegisterReadDrainsTheQueue : Prop :=
  ∀ (s : State) (idx : BitVec 4),
    (∃ k, k ≤ s.cq.length ∧ core.run k s = .next (drained s)) ∧
    ((drained s).cq = [] → readDrained idx s = some (drained s, .value (readReg idx (drained s)))) ∧
    ((drained s).cq ≠ [] → readDrained idx s = none ∧ (drained s).halt = false ∧
      ∃ w ws, (drained s).cq = w :: ws ∧ opField w = 2#4 ∧ ws.length < (lenField w + 31) / 32) ∧
    (s.pko ≠ [] → hostStep .popPko s ≠ none) ∧ (s.upo ≠ [] → hostStep .popUpo s ≠ none)

/-! ## Reset and invariants -/

/-- R51 and R200: every state element after reset, from every state. -/
def Obligations.ResetValues : Prop :=
  ∀ s : State, ∃ t, sysStep (.host .reset) s = some t ∧ (∀ sym, t.table.read sym = none) ∧
    t.table.nvalid = 0 ∧ t.table.maxl = 0 ∧ t.tblErr = 0 ∧ t.tblSub = 0 ∧ t.tblErrSym = 0 ∧
    t.pkAcc = [] ∧ t.pkPad = 0 ∧ t.pkSyms = 0 ∧ t.pkBytes = 0 ∧ t.pkErr = 0 ∧ t.pkSub = 0 ∧ t.pkBadSym = 0 ∧
    t.upBuf = [] ∧ t.upSyms = 0 ∧ t.upBits = 0 ∧ t.upErr = 0 ∧ t.upSub = 0 ∧
    t.halt = false ∧ t.cmdWords = 0 ∧ t.cq = [] ∧ t.pko = [] ∧ t.upo = [] ∧ t = core.reset

/-- R201: from any state with HALT = 0, TBL_CLR, PK_START and UP_START give every element its reset value but CMD_WORDS,
CQ, PKO and UPO. -/
def Obligations.ClearCommandsGiveTheResetState : Prop :=
  ∀ s : State, s.halt = false → runCmds [.tblClr, .pkStart, .upStart] s =
    .next { State.reset with cmdWords := s.cmdWords, cq := s.cq, pko := s.pko, upo := s.upo }

/-- The reset state meets the invariant. -/
def Obligations.ResetMeetsTheInvariant : Prop := Inv State.reset

/-- Every step keeps the invariant: the bounds on codes, bit buffers and PAD, the legal error values, and the clearing that
goes with an error (R23, R26, R27, R28, R30, R31, R33, R131, R151). -/
def Obligations.StepKeepsTheInvariant : Prop :=
  ∀ s t : State, Inv s → step s = .next t → Inv t

/-- Every state that the block and the host reach together from reset meets the invariant, whatever the host writes, pops,
reads or resets. -/
def Obligations.ReachableStatesMeetTheInvariant : Prop := ∀ s : State, Reachable s → Inv s
end

