-- ==== Sys2Proof/Laws/Bits.lean ====
section
/-! SUPPORT. Bytes and bit-strings: what `byteOf`, `bitsOf` and `padToByte` give (R12). -/

namespace Sys2Proof.Machine

@[simp] theorem bitsOf_length (b : Byte) : (bitsOf b).length = 8 := by simp [bitsOf]

theorem bitsOf_getElem (b : Byte) (i : Nat) (h : i < (bitsOf b).length) :
    (bitsOf b)[i] = b.getLsbD (7 - i) := by simp [bitsOf]

/-- Bit `7 − i` of `byte(x)` is the bit at position `i` (R12). -/
theorem byteOf_getLsbD (x : BitString) (hx : x.length = 8) (i : Nat) (hi : i < 8) :
    (byteOf x).getLsbD (7 - i) = x.getD i false := by
  rw [byteOf, BitVec.getLsbD_setWidth, BitVec.getLsbD_eq_getMsbD, BitVec.getMsbD_ofBoolListBE]
  have h1 : 7 - i < 8 := by omega
  have h2 : 7 - (7 - i) = i := by omega
  simp [h1, h2, hx]

theorem bitsOf_byteOf (x : BitString) (hx : x.length = 8) : bitsOf (byteOf x) = x := by
  apply List.ext_getElem
  · simp [hx]
  · intro i h1 h2
    rw [bitsOf_getElem, byteOf_getLsbD x hx i (by omega)]
    simp [h2]

theorem byteOf_bitsOf (b : Byte) : byteOf (bitsOf b) = b := by
  apply BitVec.eq_of_getLsbD_eq
  intro j hj
  have h := byteOf_getLsbD (bitsOf b) (bitsOf_length b) (7 - j) (by omega)
  have h7 : 7 - (7 - j) = j := by omega
  rw [h7] at h
  rw [h, List.getD_eq_getElem _ _ (by simp; omega), bitsOf_getElem, h7]

/-- The bits of the padded byte: the bits of `x`, then zeros (R137). -/
theorem bitsOf_padToByte (x : BitString) (hx : x.length ≤ 8) :
    bitsOf (padToByte x) = x ++ List.replicate (8 - x.length) false := by
  rw [padToByte, bitsOf_byteOf]
  simp; omega

/-- A full group needs no padding. -/
theorem padToByte_of_length (x : BitString) (hx : x.length = 8) : padToByte x = byteOf x := by
  simp [padToByte, hx]

theorem leadingBits_length (nv : Nat) (b : Byte) : (leadingBits nv b).length = min nv 8 := by
  simp [leadingBits]

/-- NV = 8 gives every bit of the byte (R157). -/
@[simp] theorem leadingBits_eight (b : Byte) : leadingBits 8 b = bitsOf b := by
  simp [leadingBits, List.take_of_length_le]

/-- One event and then `n` more are `n + 1` events (R7). -/
theorem counter_add_one (c : Counter) (n : Nat) : c + 1#32 + BitVec.ofNat 32 n = c + BitVec.ofNat 32 (n + 1) := by
  rw [BitVec.add_assoc, Nat.add_comm n 1, BitVec.ofNat_add]

end Sys2Proof.Machine
end

