-- ==== Sys2Proof/Laws/Encoding.lean ====
section
/-! SUPPORT. Headers and their fields, the two cases of the decoder, and the payload words of a code (R80 to R87). -/

namespace Sys2Proof

/-! ## The fields of an encoded header -/

/-- The bits of a word with one field. -/
theorem fieldAt_getElem (lo : Nat) {n : Nat} (v : BitVec n) (i : Nat) (h : i < 32) :
    (fieldAt lo v)[i] = (decide (lo ≤ i) && v.getLsbD (i - lo)) := by
  by_cases h2 : i < lo
  · have : ¬ lo ≤ i := by omega
    simp [fieldAt, h2, this]
  · have : lo ≤ i := by omega
    simp [fieldAt, h2, this]

@[simp] theorem opField_headerS (op : BitVec 4) (b : Byte) : opField (headerS op b) = op := by
  apply BitVec.eq_of_getLsbD_eq
  intro i hi
  have h1 : 28 + i < 32 := by omega
  simp [opField, headerS, fieldAt_getElem, hi, h1, BitVec.getLsbD_of_ge b (28 + i) (by omega)]

@[simp] theorem opField_headerT (op nv : BitVec 4) (b : Byte) : opField (headerT op nv b) = op := by
  apply BitVec.eq_of_getLsbD_eq
  intro i hi
  have h1 : 28 + i < 32 := by omega
  simp [opField, headerT, fieldAt_getElem, hi, h1, BitVec.getLsbD_of_ge b (28 + i) (by omega),
    BitVec.getLsbD_of_ge nv (28 + i - 8) (by omega)]

@[simp] theorem opField_headerL (op : BitVec 4) (sym : Byte) (len : Nat) : opField (headerL op sym len) = op := by
  apply BitVec.eq_of_getLsbD_eq
  intro i hi
  have h1 : 28 + i < 32 := by omega
  simp [opField, headerL, fieldAt_getElem, hi, h1, BitVec.getLsbD_of_ge sym (28 + i - 16) (by omega),
    BitVec.getLsbD_of_ge (BitVec.ofNat 8 len) (28 + i) (by omega)]

@[simp] theorem lowByteField_headerS (op : BitVec 4) (b : Byte) : lowByteField (headerS op b) = b := by
  apply BitVec.eq_of_getLsbD_eq
  intro i hi
  have h1 : i < 32 := by omega
  have h2 : ¬ 28 ≤ i := by omega
  simp [lowByteField, headerS, fieldAt_getElem, hi, h1, h2]

@[simp] theorem lowByteField_headerT (op nv : BitVec 4) (b : Byte) : lowByteField (headerT op nv b) = b := by
  apply BitVec.eq_of_getLsbD_eq
  intro i hi
  have h1 : i < 32 := by omega
  have h2 : ¬ 28 ≤ i := by omega
  have h3 : ¬ 8 ≤ i := by omega
  simp [lowByteField, headerT, fieldAt_getElem, hi, h1, h2, h3]

@[simp] theorem nvField_headerT (op nv : BitVec 4) (b : Byte) : nvField (headerT op nv b) = nv := by
  apply BitVec.eq_of_getLsbD_eq
  intro i hi
  have h1 : 8 + i < 32 := by omega
  have h2 : ¬ 28 ≤ 8 + i := by omega
  simp [nvField, headerT, fieldAt_getElem, hi, h1, h2]

@[simp] theorem loadSymField_headerL (op : BitVec 4) (sym : Byte) (len : Nat) :
    loadSymField (headerL op sym len) = sym := by
  apply BitVec.eq_of_getLsbD_eq
  intro i hi
  have h1 : 16 + i < 32 := by omega
  have h2 : ¬ 28 ≤ 16 + i := by omega
  simp [loadSymField, headerL, fieldAt_getElem, hi, h1, h2,
    BitVec.getLsbD_of_ge (BitVec.ofNat 8 len) (16 + i) (by omega)]

theorem lenField_headerL (op : BitVec 4) (sym : Byte) (len : Nat) (h : len < 256) :
    lenField (headerL op sym len) = len := by
  have : (headerL op sym len).extractLsb' 0 8 = BitVec.ofNat 8 len := by
    apply BitVec.eq_of_getLsbD_eq
    intro i hi
    have h1 : i < 32 := by omega
    have h2 : ¬ 28 ≤ i := by omega
    have h3 : ¬ 16 ≤ i := by omega
    simp [headerL, fieldAt_getElem, hi, h1, h2, h3]
  rw [lenField, this, BitVec.toNat_ofNat, Nat.mod_eq_of_lt (by omega)]

theorem lenField_lt (w : Word) : lenField w < 256 := (w.extractLsb' 0 8).isLt

/-! ## The two cases of the decoder -/

theorem decode_single (w : Word) (ws : List Word) (h : opField w ≠ 2#4) :
    decode (w :: ws) = .ok (decodeSingle w, ws) := by
  rw [decode, if_neg h]

theorem decode_load (w : Word) (ws : List Word) (h : opField w = 2#4) (hp : payloadCount (lenField w) ≤ ws.length) :
    decode (w :: ws) = .ok (.tblLd (loadSymField w)
      (codeOfPayload (lenField w) (ws.take (payloadCount (lenField w)))), ws.drop (payloadCount (lenField w))) := by
  rw [decode, if_pos h, if_neg (by omega)]

theorem decode_load_missing (w : Word) (ws : List Word) (h : opField w = 2#4)
    (hp : ws.length < payloadCount (lenField w)) : decode (w :: ws) = .error .payloadMissing := by
  rw [decode, if_pos h, if_pos hp]

/-- The code of a `TBL_LD` is as long as its LEN says. -/
@[simp] theorem codeOfPayload_length (len : Nat) (payload : List Word) :
    (codeOfPayload len payload).length = len := by simp [codeOfPayload]

/-- What a list of words decodes to, said once: no word, a single-word command, a `TBL_LD` with its payload, or a
`TBL_LD` without. -/
theorem decode_cases (ws : List Word) :
    (ws = [] ∧ decode ws = .error .noWord) ∨
    (∃ w rest, ws = w :: rest ∧ opField w ≠ 2#4 ∧ decode ws = .ok (decodeSingle w, rest)) ∨
    (∃ w rest, ws = w :: rest ∧ opField w = 2#4 ∧ payloadCount (lenField w) ≤ rest.length ∧
      decode ws = .ok (.tblLd (loadSymField w)
        (codeOfPayload (lenField w) (rest.take (payloadCount (lenField w)))), rest.drop (payloadCount (lenField w)))) ∨
    (∃ w rest, ws = w :: rest ∧ opField w = 2#4 ∧ rest.length < payloadCount (lenField w) ∧
      decode ws = .error .payloadMissing) := by
  cases ws with
  | nil => exact .inl ⟨rfl, rfl⟩
  | cons w rest =>
    by_cases h : opField w = 2#4
    · by_cases hp : rest.length < payloadCount (lenField w)
      · exact .inr (.inr (.inr ⟨w, rest, rfl, h, hp, decode_load_missing w rest h hp⟩))
      · exact .inr (.inr (.inl ⟨w, rest, rfl, h, by omega, decode_load w rest h (by omega)⟩))
    · exact .inr (.inl ⟨w, rest, rfl, h, decode_single w rest h⟩)

/-- The words of a decoded command are those its header gives, and they have left the list (R85). -/
theorem decode_words (w : Word) (ws rest : List Word) (i : Instr) (h : decode (w :: ws) = .ok (i, rest)) :
    i.words = headerWords w ∧ headerWords w ≤ (w :: ws).length ∧ rest = (w :: ws).drop (headerWords w) := by
  by_cases ho : opField w = 2#4
  · by_cases hp : payloadCount (lenField w) ≤ ws.length
    · rw [decode_load w ws ho hp] at h
      cases h
      refine ⟨?_, ?_, ?_⟩
      · simp [Instr.words, headerWords, ho]
      · simp [headerWords, ho]; omega
      · simp [headerWords, ho, Nat.add_comm 1]
    · rw [decode_load_missing w ws ho (by omega)] at h
      cases h
  · rw [decode_single w ws ho] at h
    cases h
    refine ⟨?_, ?_, ?_⟩
    · rw [headerWords, if_neg ho, decodeSingle]
      split <;> rfl
    · simp [headerWords, ho]
    · simp [headerWords, ho]

/-! ## Payload words -/

theorem wordOfBits_getLsbD (x : BitString) (hx : x.length ≤ 32) (j : Nat) (hj : j < 32) :
    (wordOfBits x).getLsbD (31 - j) = x.getD j false := by
  have hl : ((x ++ List.replicate (32 - x.length) false).take 32).length = 32 := by simp; omega
  rw [wordOfBits, BitVec.getLsbD_setWidth, BitVec.getLsbD_eq_getMsbD, BitVec.getMsbD_ofBoolListBE, hl]
  have h1 : 31 - j < 32 := by omega
  have h2 : 31 - (31 - j) = j := by omega
  rw [h2]
  by_cases hjx : j < x.length
  · simp [h1, hj, List.getElem?_append_left hjx]
  · have : x.length ≤ j := by omega
    have hr : j - x.length < 32 - x.length := by omega
    simp [h1, hj, List.getElem?_append_right this, List.getElem?_eq_none this, hr]

@[simp] theorem payloadOfCode_length (code : BitString) :
    (payloadOfCode code).length = payloadCount code.length := by simp [payloadOfCode]

/-- The payload words of a code give the code back (R86). -/
theorem codeOfPayload_payloadOfCode (code : BitString) :
    codeOfPayload code.length (payloadOfCode code) = code := by
  apply List.ext_getElem
  · simp
  · intro i h1 h2
    have hdiv : i / 32 < payloadCount code.length := by
      simp only [payloadCount]; omega
    have hmod : i % 32 < 32 := Nat.mod_lt _ (by omega)
    have hlen : ((code.drop (32 * (i / 32))).take 32).length ≤ 32 := by simp
    have hsum : 32 * (i / 32) + i % 32 = i := Nat.div_add_mod i 32
    have hget : (payloadOfCode code).getD (i / 32) 0 = wordOfBits ((code.drop (32 * (i / 32))).take 32) := by
      simp [payloadOfCode, hdiv]
    simp only [codeOfPayload, List.getElem_map, List.getElem_range, hget]
    rw [wordOfBits_getLsbD _ hlen _ hmod]
    simp [hmod, hsum, h2]

end Sys2Proof
end

