-- ==== Sys2Proof/Laws/Groups.lean ====
section
/-! SUPPORT. Cutting a bit-string into groups of 8 bits: the bytes of its full groups and of its padded last group. -/

namespace Sys2Proof.Safety

open Sys2Proof.Machine

theorem fullBytes_short (x : BitString) (h : x.length < 8) : fullBytes x = [] := by
  simp [fullBytes, Nat.div_eq_of_lt h]

theorem restBits_short (x : BitString) (h : x.length < 8) : restBits x = x := by
  simp [restBits, Nat.div_eq_of_lt h]

theorem group_zero (g x : BitString) (h : g.length = 8) : group 0 (g ++ x) = g := by
  simp [group, ← h]

theorem group_succ (g x : BitString) (h : g.length = 8) (k : Nat) : group (k + 1) (g ++ x) = group k x := by
  have : 8 * (k + 1) = g.length + 8 * k := by omega
  rw [group, this, List.drop_length_add_append, group]

theorem length_group_add (g x : BitString) (h : g.length = 8) : (g ++ x).length / 8 = x.length / 8 + 1 := by
  simp [h]

theorem fullBytes_group (g x : BitString) (h : g.length = 8) :
    fullBytes (g ++ x) = byteOf g :: fullBytes x := by
  rw [fullBytes, length_group_add g x h, List.range_succ_eq_map]
  simp [fullBytes, group_zero g x h, group_succ g x h, Function.comp_def]

theorem restBits_group (g x : BitString) (h : g.length = 8) : restBits (g ++ x) = restBits x := by
  rw [restBits, length_group_add g x h, restBits]
  have : 8 * (x.length / 8 + 1) = g.length + 8 * (x.length / 8) := by omega
  rw [this, List.drop_length_add_append]

theorem packBits_nil : packBits [] = [] := by simp [packBits]

theorem packBits_short (x : BitString) (h : x.length < 8) (h0 : x ≠ []) : packBits x = [padToByte x] := by
  have hpos : 0 < x.length := List.length_pos_iff.mpr h0
  have : (x.length + 7) / 8 = 1 := by omega
  have ht : x.take 8 = x := List.take_of_length_le (by omega)
  simp [packBits, this, group, ht]

theorem packBits_group (g x : BitString) (h : g.length = 8) : packBits (g ++ x) = byteOf g :: packBits x := by
  have hl : ((g ++ x).length + 7) / 8 = (x.length + 7) / 8 + 1 := by simp [h]; omega
  rw [packBits, hl, List.range_succ_eq_map]
  simp [packBits, group_zero g x h, group_succ g x h, Function.comp_def, padToByte_of_length g h]

theorem restBits_length (x : BitString) : (restBits x).length = x.length % 8 := by
  simp [restBits]; omega

theorem fullBytes_length (x : BitString) : (fullBytes x).length = x.length / 8 := by simp [fullBytes]

theorem packBits_length (x : BitString) : (packBits x).length = (x.length + 7) / 8 := by simp [packBits]

/-- A bit-string is empty or short, or begins with a full group. -/
theorem short_or_group (x : BitString) : x.length < 8 ∨ ∃ g y, g.length = 8 ∧ x = g ++ y := by
  by_cases h : x.length < 8
  · exact .inl h
  · exact .inr ⟨x.take 8, x.drop 8, by simp; omega, (List.take_append_drop 8 x).symm⟩

/-- The bytes of R133 are the full groups and, when bits are left, their padded byte. -/
theorem packBits_eq (x : BitString) :
    packBits x = fullBytes x ++ (if restBits x = [] then [] else [padToByte (restBits x)]) := by
  induction h : x.length using Nat.strong_induction_on generalizing x with
  | _ n ih =>
    rcases short_or_group x with hs | ⟨g, y, hg, rfl⟩
    · rw [fullBytes_short x hs, restBits_short x hs]
      by_cases h0 : x = []
      · simp [h0, packBits_nil]
      · simp [h0, packBits_short x hs h0]
    · rw [packBits_group g y hg, fullBytes_group g y hg, restBits_group g y hg,
        ih y.length (by simp at h; omega) y rfl, List.cons_append]

end Sys2Proof.Safety
end

