-- ==== Sys2Proof/Laws/State.lean ====
section
/-! SUPPORT. One lemma per field per update of State, so that no later proof unfolds a record update. -/

namespace Sys2Proof.Machine

/-! ### consume -/

@[simp] theorem consume_table (n : Nat) (s : State) : (consume n s).table = s.table := rfl
@[simp] theorem consume_tblErr (n : Nat) (s : State) : (consume n s).tblErr = s.tblErr := rfl
@[simp] theorem consume_tblSub (n : Nat) (s : State) : (consume n s).tblSub = s.tblSub := rfl
@[simp] theorem consume_tblErrSym (n : Nat) (s : State) : (consume n s).tblErrSym = s.tblErrSym := rfl
@[simp] theorem consume_pkAcc (n : Nat) (s : State) : (consume n s).pkAcc = s.pkAcc := rfl
@[simp] theorem consume_pkPad (n : Nat) (s : State) : (consume n s).pkPad = s.pkPad := rfl
@[simp] theorem consume_pkSyms (n : Nat) (s : State) : (consume n s).pkSyms = s.pkSyms := rfl
@[simp] theorem consume_pkBytes (n : Nat) (s : State) : (consume n s).pkBytes = s.pkBytes := rfl
@[simp] theorem consume_pkErr (n : Nat) (s : State) : (consume n s).pkErr = s.pkErr := rfl
@[simp] theorem consume_pkSub (n : Nat) (s : State) : (consume n s).pkSub = s.pkSub := rfl
@[simp] theorem consume_pkBadSym (n : Nat) (s : State) : (consume n s).pkBadSym = s.pkBadSym := rfl
@[simp] theorem consume_upBuf (n : Nat) (s : State) : (consume n s).upBuf = s.upBuf := rfl
@[simp] theorem consume_upSyms (n : Nat) (s : State) : (consume n s).upSyms = s.upSyms := rfl
@[simp] theorem consume_upBits (n : Nat) (s : State) : (consume n s).upBits = s.upBits := rfl
@[simp] theorem consume_upErr (n : Nat) (s : State) : (consume n s).upErr = s.upErr := rfl
@[simp] theorem consume_upSub (n : Nat) (s : State) : (consume n s).upSub = s.upSub := rfl
@[simp] theorem consume_halt (n : Nat) (s : State) : (consume n s).halt = s.halt := rfl
@[simp] theorem consume_cmdWords (n : Nat) (s : State) : (consume n s).cmdWords = s.cmdWords + BitVec.ofNat 32 n := rfl
@[simp] theorem consume_cq (n : Nat) (s : State) : (consume n s).cq = s.cq.drop n := rfl
@[simp] theorem consume_pko (n : Nat) (s : State) : (consume n s).pko = s.pko := rfl
@[simp] theorem consume_upo (n : Nat) (s : State) : (consume n s).upo = s.upo := rfl

/-! ### discardHead -/

@[simp] theorem discardHead_table (s : State) : (discardHead s).table = s.table := rfl
@[simp] theorem discardHead_tblErr (s : State) : (discardHead s).tblErr = s.tblErr := rfl
@[simp] theorem discardHead_tblSub (s : State) : (discardHead s).tblSub = s.tblSub := rfl
@[simp] theorem discardHead_tblErrSym (s : State) : (discardHead s).tblErrSym = s.tblErrSym := rfl
@[simp] theorem discardHead_pkAcc (s : State) : (discardHead s).pkAcc = s.pkAcc := rfl
@[simp] theorem discardHead_pkPad (s : State) : (discardHead s).pkPad = s.pkPad := rfl
@[simp] theorem discardHead_pkSyms (s : State) : (discardHead s).pkSyms = s.pkSyms := rfl
@[simp] theorem discardHead_pkBytes (s : State) : (discardHead s).pkBytes = s.pkBytes := rfl
@[simp] theorem discardHead_pkErr (s : State) : (discardHead s).pkErr = s.pkErr := rfl
@[simp] theorem discardHead_pkSub (s : State) : (discardHead s).pkSub = s.pkSub := rfl
@[simp] theorem discardHead_pkBadSym (s : State) : (discardHead s).pkBadSym = s.pkBadSym := rfl
@[simp] theorem discardHead_upBuf (s : State) : (discardHead s).upBuf = s.upBuf := rfl
@[simp] theorem discardHead_upSyms (s : State) : (discardHead s).upSyms = s.upSyms := rfl
@[simp] theorem discardHead_upBits (s : State) : (discardHead s).upBits = s.upBits := rfl
@[simp] theorem discardHead_upErr (s : State) : (discardHead s).upErr = s.upErr := rfl
@[simp] theorem discardHead_upSub (s : State) : (discardHead s).upSub = s.upSub := rfl
@[simp] theorem discardHead_halt (s : State) : (discardHead s).halt = s.halt := rfl
@[simp] theorem discardHead_cmdWords (s : State) : (discardHead s).cmdWords = s.cmdWords := rfl
@[simp] theorem discardHead_cq (s : State) : (discardHead s).cq = s.cq.drop 1 := rfl
@[simp] theorem discardHead_pko (s : State) : (discardHead s).pko = s.pko := rfl
@[simp] theorem discardHead_upo (s : State) : (discardHead s).upo = s.upo := rfl

/-! ### setHalt -/

@[simp] theorem setHalt_table (s : State) : (setHalt s).table = s.table := rfl
@[simp] theorem setHalt_tblErr (s : State) : (setHalt s).tblErr = s.tblErr := rfl
@[simp] theorem setHalt_tblSub (s : State) : (setHalt s).tblSub = s.tblSub := rfl
@[simp] theorem setHalt_tblErrSym (s : State) : (setHalt s).tblErrSym = s.tblErrSym := rfl
@[simp] theorem setHalt_pkAcc (s : State) : (setHalt s).pkAcc = s.pkAcc := rfl
@[simp] theorem setHalt_pkPad (s : State) : (setHalt s).pkPad = s.pkPad := rfl
@[simp] theorem setHalt_pkSyms (s : State) : (setHalt s).pkSyms = s.pkSyms := rfl
@[simp] theorem setHalt_pkBytes (s : State) : (setHalt s).pkBytes = s.pkBytes := rfl
@[simp] theorem setHalt_pkErr (s : State) : (setHalt s).pkErr = s.pkErr := rfl
@[simp] theorem setHalt_pkSub (s : State) : (setHalt s).pkSub = s.pkSub := rfl
@[simp] theorem setHalt_pkBadSym (s : State) : (setHalt s).pkBadSym = s.pkBadSym := rfl
@[simp] theorem setHalt_upBuf (s : State) : (setHalt s).upBuf = s.upBuf := rfl
@[simp] theorem setHalt_upSyms (s : State) : (setHalt s).upSyms = s.upSyms := rfl
@[simp] theorem setHalt_upBits (s : State) : (setHalt s).upBits = s.upBits := rfl
@[simp] theorem setHalt_upErr (s : State) : (setHalt s).upErr = s.upErr := rfl
@[simp] theorem setHalt_upSub (s : State) : (setHalt s).upSub = s.upSub := rfl
@[simp] theorem setHalt_halt (s : State) : (setHalt s).halt = true := rfl
@[simp] theorem setHalt_cmdWords (s : State) : (setHalt s).cmdWords = s.cmdWords := rfl
@[simp] theorem setHalt_cq (s : State) : (setHalt s).cq = s.cq := rfl
@[simp] theorem setHalt_pko (s : State) : (setHalt s).pko = s.pko := rfl
@[simp] theorem setHalt_upo (s : State) : (setHalt s).upo = s.upo := rfl

/-! ### clearTable -/

@[simp] theorem clearTable_table (s : State) : (clearTable s).table = emptyTable := rfl
@[simp] theorem clearTable_tblErr (s : State) : (clearTable s).tblErr = s.tblErr := rfl
@[simp] theorem clearTable_tblSub (s : State) : (clearTable s).tblSub = s.tblSub := rfl
@[simp] theorem clearTable_tblErrSym (s : State) : (clearTable s).tblErrSym = s.tblErrSym := rfl
@[simp] theorem clearTable_pkAcc (s : State) : (clearTable s).pkAcc = s.pkAcc := rfl
@[simp] theorem clearTable_pkPad (s : State) : (clearTable s).pkPad = s.pkPad := rfl
@[simp] theorem clearTable_pkSyms (s : State) : (clearTable s).pkSyms = s.pkSyms := rfl
@[simp] theorem clearTable_pkBytes (s : State) : (clearTable s).pkBytes = s.pkBytes := rfl
@[simp] theorem clearTable_pkErr (s : State) : (clearTable s).pkErr = s.pkErr := rfl
@[simp] theorem clearTable_pkSub (s : State) : (clearTable s).pkSub = s.pkSub := rfl
@[simp] theorem clearTable_pkBadSym (s : State) : (clearTable s).pkBadSym = s.pkBadSym := rfl
@[simp] theorem clearTable_upBuf (s : State) : (clearTable s).upBuf = s.upBuf := rfl
@[simp] theorem clearTable_upSyms (s : State) : (clearTable s).upSyms = s.upSyms := rfl
@[simp] theorem clearTable_upBits (s : State) : (clearTable s).upBits = s.upBits := rfl
@[simp] theorem clearTable_upErr (s : State) : (clearTable s).upErr = s.upErr := rfl
@[simp] theorem clearTable_upSub (s : State) : (clearTable s).upSub = s.upSub := rfl
@[simp] theorem clearTable_halt (s : State) : (clearTable s).halt = s.halt := rfl
@[simp] theorem clearTable_cmdWords (s : State) : (clearTable s).cmdWords = s.cmdWords := rfl
@[simp] theorem clearTable_cq (s : State) : (clearTable s).cq = s.cq := rfl
@[simp] theorem clearTable_pko (s : State) : (clearTable s).pko = s.pko := rfl
@[simp] theorem clearTable_upo (s : State) : (clearTable s).upo = s.upo := rfl

/-! ### setEntry -/

@[simp] theorem setEntry_table (sym : Byte) (code : BitString) (s : State) : (setEntry sym code s).table = s.table.write sym code := rfl
@[simp] theorem setEntry_tblErr (sym : Byte) (code : BitString) (s : State) : (setEntry sym code s).tblErr = s.tblErr := rfl
@[simp] theorem setEntry_tblSub (sym : Byte) (code : BitString) (s : State) : (setEntry sym code s).tblSub = s.tblSub := rfl
@[simp] theorem setEntry_tblErrSym (sym : Byte) (code : BitString) (s : State) : (setEntry sym code s).tblErrSym = s.tblErrSym := rfl
@[simp] theorem setEntry_pkAcc (sym : Byte) (code : BitString) (s : State) : (setEntry sym code s).pkAcc = s.pkAcc := rfl
@[simp] theorem setEntry_pkPad (sym : Byte) (code : BitString) (s : State) : (setEntry sym code s).pkPad = s.pkPad := rfl
@[simp] theorem setEntry_pkSyms (sym : Byte) (code : BitString) (s : State) : (setEntry sym code s).pkSyms = s.pkSyms := rfl
@[simp] theorem setEntry_pkBytes (sym : Byte) (code : BitString) (s : State) : (setEntry sym code s).pkBytes = s.pkBytes := rfl
@[simp] theorem setEntry_pkErr (sym : Byte) (code : BitString) (s : State) : (setEntry sym code s).pkErr = s.pkErr := rfl
@[simp] theorem setEntry_pkSub (sym : Byte) (code : BitString) (s : State) : (setEntry sym code s).pkSub = s.pkSub := rfl
@[simp] theorem setEntry_pkBadSym (sym : Byte) (code : BitString) (s : State) : (setEntry sym code s).pkBadSym = s.pkBadSym := rfl
@[simp] theorem setEntry_upBuf (sym : Byte) (code : BitString) (s : State) : (setEntry sym code s).upBuf = s.upBuf := rfl
@[simp] theorem setEntry_upSyms (sym : Byte) (code : BitString) (s : State) : (setEntry sym code s).upSyms = s.upSyms := rfl
@[simp] theorem setEntry_upBits (sym : Byte) (code : BitString) (s : State) : (setEntry sym code s).upBits = s.upBits := rfl
@[simp] theorem setEntry_upErr (sym : Byte) (code : BitString) (s : State) : (setEntry sym code s).upErr = s.upErr := rfl
@[simp] theorem setEntry_upSub (sym : Byte) (code : BitString) (s : State) : (setEntry sym code s).upSub = s.upSub := rfl
@[simp] theorem setEntry_halt (sym : Byte) (code : BitString) (s : State) : (setEntry sym code s).halt = s.halt := rfl
@[simp] theorem setEntry_cmdWords (sym : Byte) (code : BitString) (s : State) : (setEntry sym code s).cmdWords = s.cmdWords := rfl
@[simp] theorem setEntry_cq (sym : Byte) (code : BitString) (s : State) : (setEntry sym code s).cq = s.cq := rfl
@[simp] theorem setEntry_pko (sym : Byte) (code : BitString) (s : State) : (setEntry sym code s).pko = s.pko := rfl
@[simp] theorem setEntry_upo (sym : Byte) (code : BitString) (s : State) : (setEntry sym code s).upo = s.upo := rfl

/-! ### pushPko -/

@[simp] theorem pushPko_table (b : Byte) (s : State) : (pushPko b s).table = s.table := rfl
@[simp] theorem pushPko_tblErr (b : Byte) (s : State) : (pushPko b s).tblErr = s.tblErr := rfl
@[simp] theorem pushPko_tblSub (b : Byte) (s : State) : (pushPko b s).tblSub = s.tblSub := rfl
@[simp] theorem pushPko_tblErrSym (b : Byte) (s : State) : (pushPko b s).tblErrSym = s.tblErrSym := rfl
@[simp] theorem pushPko_pkAcc (b : Byte) (s : State) : (pushPko b s).pkAcc = s.pkAcc := rfl
@[simp] theorem pushPko_pkPad (b : Byte) (s : State) : (pushPko b s).pkPad = s.pkPad := rfl
@[simp] theorem pushPko_pkSyms (b : Byte) (s : State) : (pushPko b s).pkSyms = s.pkSyms := rfl
@[simp] theorem pushPko_pkBytes (b : Byte) (s : State) : (pushPko b s).pkBytes = s.pkBytes + 1 := rfl
@[simp] theorem pushPko_pkErr (b : Byte) (s : State) : (pushPko b s).pkErr = s.pkErr := rfl
@[simp] theorem pushPko_pkSub (b : Byte) (s : State) : (pushPko b s).pkSub = s.pkSub := rfl
@[simp] theorem pushPko_pkBadSym (b : Byte) (s : State) : (pushPko b s).pkBadSym = s.pkBadSym := rfl
@[simp] theorem pushPko_upBuf (b : Byte) (s : State) : (pushPko b s).upBuf = s.upBuf := rfl
@[simp] theorem pushPko_upSyms (b : Byte) (s : State) : (pushPko b s).upSyms = s.upSyms := rfl
@[simp] theorem pushPko_upBits (b : Byte) (s : State) : (pushPko b s).upBits = s.upBits := rfl
@[simp] theorem pushPko_upErr (b : Byte) (s : State) : (pushPko b s).upErr = s.upErr := rfl
@[simp] theorem pushPko_upSub (b : Byte) (s : State) : (pushPko b s).upSub = s.upSub := rfl
@[simp] theorem pushPko_halt (b : Byte) (s : State) : (pushPko b s).halt = s.halt := rfl
@[simp] theorem pushPko_cmdWords (b : Byte) (s : State) : (pushPko b s).cmdWords = s.cmdWords := rfl
@[simp] theorem pushPko_cq (b : Byte) (s : State) : (pushPko b s).cq = s.cq := rfl
@[simp] theorem pushPko_pko (b : Byte) (s : State) : (pushPko b s).pko = s.pko ++ [b] := rfl
@[simp] theorem pushPko_upo (b : Byte) (s : State) : (pushPko b s).upo = s.upo := rfl

/-! ### setPkAcc -/

@[simp] theorem setPkAcc_table (x : BitString) (s : State) : (setPkAcc x s).table = s.table := rfl
@[simp] theorem setPkAcc_tblErr (x : BitString) (s : State) : (setPkAcc x s).tblErr = s.tblErr := rfl
@[simp] theorem setPkAcc_tblSub (x : BitString) (s : State) : (setPkAcc x s).tblSub = s.tblSub := rfl
@[simp] theorem setPkAcc_tblErrSym (x : BitString) (s : State) : (setPkAcc x s).tblErrSym = s.tblErrSym := rfl
@[simp] theorem setPkAcc_pkAcc (x : BitString) (s : State) : (setPkAcc x s).pkAcc = x := rfl
@[simp] theorem setPkAcc_pkPad (x : BitString) (s : State) : (setPkAcc x s).pkPad = s.pkPad := rfl
@[simp] theorem setPkAcc_pkSyms (x : BitString) (s : State) : (setPkAcc x s).pkSyms = s.pkSyms := rfl
@[simp] theorem setPkAcc_pkBytes (x : BitString) (s : State) : (setPkAcc x s).pkBytes = s.pkBytes := rfl
@[simp] theorem setPkAcc_pkErr (x : BitString) (s : State) : (setPkAcc x s).pkErr = s.pkErr := rfl
@[simp] theorem setPkAcc_pkSub (x : BitString) (s : State) : (setPkAcc x s).pkSub = s.pkSub := rfl
@[simp] theorem setPkAcc_pkBadSym (x : BitString) (s : State) : (setPkAcc x s).pkBadSym = s.pkBadSym := rfl
@[simp] theorem setPkAcc_upBuf (x : BitString) (s : State) : (setPkAcc x s).upBuf = s.upBuf := rfl
@[simp] theorem setPkAcc_upSyms (x : BitString) (s : State) : (setPkAcc x s).upSyms = s.upSyms := rfl
@[simp] theorem setPkAcc_upBits (x : BitString) (s : State) : (setPkAcc x s).upBits = s.upBits := rfl
@[simp] theorem setPkAcc_upErr (x : BitString) (s : State) : (setPkAcc x s).upErr = s.upErr := rfl
@[simp] theorem setPkAcc_upSub (x : BitString) (s : State) : (setPkAcc x s).upSub = s.upSub := rfl
@[simp] theorem setPkAcc_halt (x : BitString) (s : State) : (setPkAcc x s).halt = s.halt := rfl
@[simp] theorem setPkAcc_cmdWords (x : BitString) (s : State) : (setPkAcc x s).cmdWords = s.cmdWords := rfl
@[simp] theorem setPkAcc_cq (x : BitString) (s : State) : (setPkAcc x s).cq = s.cq := rfl
@[simp] theorem setPkAcc_pko (x : BitString) (s : State) : (setPkAcc x s).pko = s.pko := rfl
@[simp] theorem setPkAcc_upo (x : BitString) (s : State) : (setPkAcc x s).upo = s.upo := rfl

/-! ### setPkPad -/

@[simp] theorem setPkPad_table (n : Nat) (s : State) : (setPkPad n s).table = s.table := rfl
@[simp] theorem setPkPad_tblErr (n : Nat) (s : State) : (setPkPad n s).tblErr = s.tblErr := rfl
@[simp] theorem setPkPad_tblSub (n : Nat) (s : State) : (setPkPad n s).tblSub = s.tblSub := rfl
@[simp] theorem setPkPad_tblErrSym (n : Nat) (s : State) : (setPkPad n s).tblErrSym = s.tblErrSym := rfl
@[simp] theorem setPkPad_pkAcc (n : Nat) (s : State) : (setPkPad n s).pkAcc = s.pkAcc := rfl
@[simp] theorem setPkPad_pkPad (n : Nat) (s : State) : (setPkPad n s).pkPad = n := rfl
@[simp] theorem setPkPad_pkSyms (n : Nat) (s : State) : (setPkPad n s).pkSyms = s.pkSyms := rfl
@[simp] theorem setPkPad_pkBytes (n : Nat) (s : State) : (setPkPad n s).pkBytes = s.pkBytes := rfl
@[simp] theorem setPkPad_pkErr (n : Nat) (s : State) : (setPkPad n s).pkErr = s.pkErr := rfl
@[simp] theorem setPkPad_pkSub (n : Nat) (s : State) : (setPkPad n s).pkSub = s.pkSub := rfl
@[simp] theorem setPkPad_pkBadSym (n : Nat) (s : State) : (setPkPad n s).pkBadSym = s.pkBadSym := rfl
@[simp] theorem setPkPad_upBuf (n : Nat) (s : State) : (setPkPad n s).upBuf = s.upBuf := rfl
@[simp] theorem setPkPad_upSyms (n : Nat) (s : State) : (setPkPad n s).upSyms = s.upSyms := rfl
@[simp] theorem setPkPad_upBits (n : Nat) (s : State) : (setPkPad n s).upBits = s.upBits := rfl
@[simp] theorem setPkPad_upErr (n : Nat) (s : State) : (setPkPad n s).upErr = s.upErr := rfl
@[simp] theorem setPkPad_upSub (n : Nat) (s : State) : (setPkPad n s).upSub = s.upSub := rfl
@[simp] theorem setPkPad_halt (n : Nat) (s : State) : (setPkPad n s).halt = s.halt := rfl
@[simp] theorem setPkPad_cmdWords (n : Nat) (s : State) : (setPkPad n s).cmdWords = s.cmdWords := rfl
@[simp] theorem setPkPad_cq (n : Nat) (s : State) : (setPkPad n s).cq = s.cq := rfl
@[simp] theorem setPkPad_pko (n : Nat) (s : State) : (setPkPad n s).pko = s.pko := rfl
@[simp] theorem setPkPad_upo (n : Nat) (s : State) : (setPkPad n s).upo = s.upo := rfl

/-! ### countPkSym -/

@[simp] theorem countPkSym_table (s : State) : (countPkSym s).table = s.table := rfl
@[simp] theorem countPkSym_tblErr (s : State) : (countPkSym s).tblErr = s.tblErr := rfl
@[simp] theorem countPkSym_tblSub (s : State) : (countPkSym s).tblSub = s.tblSub := rfl
@[simp] theorem countPkSym_tblErrSym (s : State) : (countPkSym s).tblErrSym = s.tblErrSym := rfl
@[simp] theorem countPkSym_pkAcc (s : State) : (countPkSym s).pkAcc = s.pkAcc := rfl
@[simp] theorem countPkSym_pkPad (s : State) : (countPkSym s).pkPad = s.pkPad := rfl
@[simp] theorem countPkSym_pkSyms (s : State) : (countPkSym s).pkSyms = s.pkSyms + 1 := rfl
@[simp] theorem countPkSym_pkBytes (s : State) : (countPkSym s).pkBytes = s.pkBytes := rfl
@[simp] theorem countPkSym_pkErr (s : State) : (countPkSym s).pkErr = s.pkErr := rfl
@[simp] theorem countPkSym_pkSub (s : State) : (countPkSym s).pkSub = s.pkSub := rfl
@[simp] theorem countPkSym_pkBadSym (s : State) : (countPkSym s).pkBadSym = s.pkBadSym := rfl
@[simp] theorem countPkSym_upBuf (s : State) : (countPkSym s).upBuf = s.upBuf := rfl
@[simp] theorem countPkSym_upSyms (s : State) : (countPkSym s).upSyms = s.upSyms := rfl
@[simp] theorem countPkSym_upBits (s : State) : (countPkSym s).upBits = s.upBits := rfl
@[simp] theorem countPkSym_upErr (s : State) : (countPkSym s).upErr = s.upErr := rfl
@[simp] theorem countPkSym_upSub (s : State) : (countPkSym s).upSub = s.upSub := rfl
@[simp] theorem countPkSym_halt (s : State) : (countPkSym s).halt = s.halt := rfl
@[simp] theorem countPkSym_cmdWords (s : State) : (countPkSym s).cmdWords = s.cmdWords := rfl
@[simp] theorem countPkSym_cq (s : State) : (countPkSym s).cq = s.cq := rfl
@[simp] theorem countPkSym_pko (s : State) : (countPkSym s).pko = s.pko := rfl
@[simp] theorem countPkSym_upo (s : State) : (countPkSym s).upo = s.upo := rfl

/-! ### clearPkCounters -/

@[simp] theorem clearPkCounters_table (s : State) : (clearPkCounters s).table = s.table := rfl
@[simp] theorem clearPkCounters_tblErr (s : State) : (clearPkCounters s).tblErr = s.tblErr := rfl
@[simp] theorem clearPkCounters_tblSub (s : State) : (clearPkCounters s).tblSub = s.tblSub := rfl
@[simp] theorem clearPkCounters_tblErrSym (s : State) : (clearPkCounters s).tblErrSym = s.tblErrSym := rfl
@[simp] theorem clearPkCounters_pkAcc (s : State) : (clearPkCounters s).pkAcc = s.pkAcc := rfl
@[simp] theorem clearPkCounters_pkPad (s : State) : (clearPkCounters s).pkPad = s.pkPad := rfl
@[simp] theorem clearPkCounters_pkSyms (s : State) : (clearPkCounters s).pkSyms = 0 := rfl
@[simp] theorem clearPkCounters_pkBytes (s : State) : (clearPkCounters s).pkBytes = 0 := rfl
@[simp] theorem clearPkCounters_pkErr (s : State) : (clearPkCounters s).pkErr = s.pkErr := rfl
@[simp] theorem clearPkCounters_pkSub (s : State) : (clearPkCounters s).pkSub = s.pkSub := rfl
@[simp] theorem clearPkCounters_pkBadSym (s : State) : (clearPkCounters s).pkBadSym = s.pkBadSym := rfl
@[simp] theorem clearPkCounters_upBuf (s : State) : (clearPkCounters s).upBuf = s.upBuf := rfl
@[simp] theorem clearPkCounters_upSyms (s : State) : (clearPkCounters s).upSyms = s.upSyms := rfl
@[simp] theorem clearPkCounters_upBits (s : State) : (clearPkCounters s).upBits = s.upBits := rfl
@[simp] theorem clearPkCounters_upErr (s : State) : (clearPkCounters s).upErr = s.upErr := rfl
@[simp] theorem clearPkCounters_upSub (s : State) : (clearPkCounters s).upSub = s.upSub := rfl
@[simp] theorem clearPkCounters_halt (s : State) : (clearPkCounters s).halt = s.halt := rfl
@[simp] theorem clearPkCounters_cmdWords (s : State) : (clearPkCounters s).cmdWords = s.cmdWords := rfl
@[simp] theorem clearPkCounters_cq (s : State) : (clearPkCounters s).cq = s.cq := rfl
@[simp] theorem clearPkCounters_pko (s : State) : (clearPkCounters s).pko = s.pko := rfl
@[simp] theorem clearPkCounters_upo (s : State) : (clearPkCounters s).upo = s.upo := rfl

/-! ### pushUpo -/

@[simp] theorem pushUpo_table (b : Byte) (s : State) : (pushUpo b s).table = s.table := rfl
@[simp] theorem pushUpo_tblErr (b : Byte) (s : State) : (pushUpo b s).tblErr = s.tblErr := rfl
@[simp] theorem pushUpo_tblSub (b : Byte) (s : State) : (pushUpo b s).tblSub = s.tblSub := rfl
@[simp] theorem pushUpo_tblErrSym (b : Byte) (s : State) : (pushUpo b s).tblErrSym = s.tblErrSym := rfl
@[simp] theorem pushUpo_pkAcc (b : Byte) (s : State) : (pushUpo b s).pkAcc = s.pkAcc := rfl
@[simp] theorem pushUpo_pkPad (b : Byte) (s : State) : (pushUpo b s).pkPad = s.pkPad := rfl
@[simp] theorem pushUpo_pkSyms (b : Byte) (s : State) : (pushUpo b s).pkSyms = s.pkSyms := rfl
@[simp] theorem pushUpo_pkBytes (b : Byte) (s : State) : (pushUpo b s).pkBytes = s.pkBytes := rfl
@[simp] theorem pushUpo_pkErr (b : Byte) (s : State) : (pushUpo b s).pkErr = s.pkErr := rfl
@[simp] theorem pushUpo_pkSub (b : Byte) (s : State) : (pushUpo b s).pkSub = s.pkSub := rfl
@[simp] theorem pushUpo_pkBadSym (b : Byte) (s : State) : (pushUpo b s).pkBadSym = s.pkBadSym := rfl
@[simp] theorem pushUpo_upBuf (b : Byte) (s : State) : (pushUpo b s).upBuf = s.upBuf := rfl
@[simp] theorem pushUpo_upSyms (b : Byte) (s : State) : (pushUpo b s).upSyms = s.upSyms + 1 := rfl
@[simp] theorem pushUpo_upBits (b : Byte) (s : State) : (pushUpo b s).upBits = s.upBits := rfl
@[simp] theorem pushUpo_upErr (b : Byte) (s : State) : (pushUpo b s).upErr = s.upErr := rfl
@[simp] theorem pushUpo_upSub (b : Byte) (s : State) : (pushUpo b s).upSub = s.upSub := rfl
@[simp] theorem pushUpo_halt (b : Byte) (s : State) : (pushUpo b s).halt = s.halt := rfl
@[simp] theorem pushUpo_cmdWords (b : Byte) (s : State) : (pushUpo b s).cmdWords = s.cmdWords := rfl
@[simp] theorem pushUpo_cq (b : Byte) (s : State) : (pushUpo b s).cq = s.cq := rfl
@[simp] theorem pushUpo_pko (b : Byte) (s : State) : (pushUpo b s).pko = s.pko := rfl
@[simp] theorem pushUpo_upo (b : Byte) (s : State) : (pushUpo b s).upo = s.upo ++ [b] := rfl

/-! ### setUpBuf -/

@[simp] theorem setUpBuf_table (x : BitString) (s : State) : (setUpBuf x s).table = s.table := rfl
@[simp] theorem setUpBuf_tblErr (x : BitString) (s : State) : (setUpBuf x s).tblErr = s.tblErr := rfl
@[simp] theorem setUpBuf_tblSub (x : BitString) (s : State) : (setUpBuf x s).tblSub = s.tblSub := rfl
@[simp] theorem setUpBuf_tblErrSym (x : BitString) (s : State) : (setUpBuf x s).tblErrSym = s.tblErrSym := rfl
@[simp] theorem setUpBuf_pkAcc (x : BitString) (s : State) : (setUpBuf x s).pkAcc = s.pkAcc := rfl
@[simp] theorem setUpBuf_pkPad (x : BitString) (s : State) : (setUpBuf x s).pkPad = s.pkPad := rfl
@[simp] theorem setUpBuf_pkSyms (x : BitString) (s : State) : (setUpBuf x s).pkSyms = s.pkSyms := rfl
@[simp] theorem setUpBuf_pkBytes (x : BitString) (s : State) : (setUpBuf x s).pkBytes = s.pkBytes := rfl
@[simp] theorem setUpBuf_pkErr (x : BitString) (s : State) : (setUpBuf x s).pkErr = s.pkErr := rfl
@[simp] theorem setUpBuf_pkSub (x : BitString) (s : State) : (setUpBuf x s).pkSub = s.pkSub := rfl
@[simp] theorem setUpBuf_pkBadSym (x : BitString) (s : State) : (setUpBuf x s).pkBadSym = s.pkBadSym := rfl
@[simp] theorem setUpBuf_upBuf (x : BitString) (s : State) : (setUpBuf x s).upBuf = x := rfl
@[simp] theorem setUpBuf_upSyms (x : BitString) (s : State) : (setUpBuf x s).upSyms = s.upSyms := rfl
@[simp] theorem setUpBuf_upBits (x : BitString) (s : State) : (setUpBuf x s).upBits = s.upBits := rfl
@[simp] theorem setUpBuf_upErr (x : BitString) (s : State) : (setUpBuf x s).upErr = s.upErr := rfl
@[simp] theorem setUpBuf_upSub (x : BitString) (s : State) : (setUpBuf x s).upSub = s.upSub := rfl
@[simp] theorem setUpBuf_halt (x : BitString) (s : State) : (setUpBuf x s).halt = s.halt := rfl
@[simp] theorem setUpBuf_cmdWords (x : BitString) (s : State) : (setUpBuf x s).cmdWords = s.cmdWords := rfl
@[simp] theorem setUpBuf_cq (x : BitString) (s : State) : (setUpBuf x s).cq = s.cq := rfl
@[simp] theorem setUpBuf_pko (x : BitString) (s : State) : (setUpBuf x s).pko = s.pko := rfl
@[simp] theorem setUpBuf_upo (x : BitString) (s : State) : (setUpBuf x s).upo = s.upo := rfl

/-! ### takeUpBit -/

@[simp] theorem takeUpBit_table (b : Bool) (s : State) : (takeUpBit b s).table = s.table := rfl
@[simp] theorem takeUpBit_tblErr (b : Bool) (s : State) : (takeUpBit b s).tblErr = s.tblErr := rfl
@[simp] theorem takeUpBit_tblSub (b : Bool) (s : State) : (takeUpBit b s).tblSub = s.tblSub := rfl
@[simp] theorem takeUpBit_tblErrSym (b : Bool) (s : State) : (takeUpBit b s).tblErrSym = s.tblErrSym := rfl
@[simp] theorem takeUpBit_pkAcc (b : Bool) (s : State) : (takeUpBit b s).pkAcc = s.pkAcc := rfl
@[simp] theorem takeUpBit_pkPad (b : Bool) (s : State) : (takeUpBit b s).pkPad = s.pkPad := rfl
@[simp] theorem takeUpBit_pkSyms (b : Bool) (s : State) : (takeUpBit b s).pkSyms = s.pkSyms := rfl
@[simp] theorem takeUpBit_pkBytes (b : Bool) (s : State) : (takeUpBit b s).pkBytes = s.pkBytes := rfl
@[simp] theorem takeUpBit_pkErr (b : Bool) (s : State) : (takeUpBit b s).pkErr = s.pkErr := rfl
@[simp] theorem takeUpBit_pkSub (b : Bool) (s : State) : (takeUpBit b s).pkSub = s.pkSub := rfl
@[simp] theorem takeUpBit_pkBadSym (b : Bool) (s : State) : (takeUpBit b s).pkBadSym = s.pkBadSym := rfl
@[simp] theorem takeUpBit_upBuf (b : Bool) (s : State) : (takeUpBit b s).upBuf = s.upBuf ++ [b] := rfl
@[simp] theorem takeUpBit_upSyms (b : Bool) (s : State) : (takeUpBit b s).upSyms = s.upSyms := rfl
@[simp] theorem takeUpBit_upBits (b : Bool) (s : State) : (takeUpBit b s).upBits = s.upBits + 1 := rfl
@[simp] theorem takeUpBit_upErr (b : Bool) (s : State) : (takeUpBit b s).upErr = s.upErr := rfl
@[simp] theorem takeUpBit_upSub (b : Bool) (s : State) : (takeUpBit b s).upSub = s.upSub := rfl
@[simp] theorem takeUpBit_halt (b : Bool) (s : State) : (takeUpBit b s).halt = s.halt := rfl
@[simp] theorem takeUpBit_cmdWords (b : Bool) (s : State) : (takeUpBit b s).cmdWords = s.cmdWords := rfl
@[simp] theorem takeUpBit_cq (b : Bool) (s : State) : (takeUpBit b s).cq = s.cq := rfl
@[simp] theorem takeUpBit_pko (b : Bool) (s : State) : (takeUpBit b s).pko = s.pko := rfl
@[simp] theorem takeUpBit_upo (b : Bool) (s : State) : (takeUpBit b s).upo = s.upo := rfl

/-! ### clearUpCounters -/

@[simp] theorem clearUpCounters_table (s : State) : (clearUpCounters s).table = s.table := rfl
@[simp] theorem clearUpCounters_tblErr (s : State) : (clearUpCounters s).tblErr = s.tblErr := rfl
@[simp] theorem clearUpCounters_tblSub (s : State) : (clearUpCounters s).tblSub = s.tblSub := rfl
@[simp] theorem clearUpCounters_tblErrSym (s : State) : (clearUpCounters s).tblErrSym = s.tblErrSym := rfl
@[simp] theorem clearUpCounters_pkAcc (s : State) : (clearUpCounters s).pkAcc = s.pkAcc := rfl
@[simp] theorem clearUpCounters_pkPad (s : State) : (clearUpCounters s).pkPad = s.pkPad := rfl
@[simp] theorem clearUpCounters_pkSyms (s : State) : (clearUpCounters s).pkSyms = s.pkSyms := rfl
@[simp] theorem clearUpCounters_pkBytes (s : State) : (clearUpCounters s).pkBytes = s.pkBytes := rfl
@[simp] theorem clearUpCounters_pkErr (s : State) : (clearUpCounters s).pkErr = s.pkErr := rfl
@[simp] theorem clearUpCounters_pkSub (s : State) : (clearUpCounters s).pkSub = s.pkSub := rfl
@[simp] theorem clearUpCounters_pkBadSym (s : State) : (clearUpCounters s).pkBadSym = s.pkBadSym := rfl
@[simp] theorem clearUpCounters_upBuf (s : State) : (clearUpCounters s).upBuf = s.upBuf := rfl
@[simp] theorem clearUpCounters_upSyms (s : State) : (clearUpCounters s).upSyms = 0 := rfl
@[simp] theorem clearUpCounters_upBits (s : State) : (clearUpCounters s).upBits = 0 := rfl
@[simp] theorem clearUpCounters_upErr (s : State) : (clearUpCounters s).upErr = s.upErr := rfl
@[simp] theorem clearUpCounters_upSub (s : State) : (clearUpCounters s).upSub = s.upSub := rfl
@[simp] theorem clearUpCounters_halt (s : State) : (clearUpCounters s).halt = s.halt := rfl
@[simp] theorem clearUpCounters_cmdWords (s : State) : (clearUpCounters s).cmdWords = s.cmdWords := rfl
@[simp] theorem clearUpCounters_cq (s : State) : (clearUpCounters s).cq = s.cq := rfl
@[simp] theorem clearUpCounters_pko (s : State) : (clearUpCounters s).pko = s.pko := rfl
@[simp] theorem clearUpCounters_upo (s : State) : (clearUpCounters s).upo = s.upo := rfl

/-! ### clearTblErr -/

@[simp] theorem clearTblErr_table (s : State) : (clearTblErr s).table = s.table := rfl
@[simp] theorem clearTblErr_tblErr (s : State) : (clearTblErr s).tblErr = 0 := rfl
@[simp] theorem clearTblErr_tblSub (s : State) : (clearTblErr s).tblSub = 0 := rfl
@[simp] theorem clearTblErr_tblErrSym (s : State) : (clearTblErr s).tblErrSym = 0 := rfl
@[simp] theorem clearTblErr_pkAcc (s : State) : (clearTblErr s).pkAcc = s.pkAcc := rfl
@[simp] theorem clearTblErr_pkPad (s : State) : (clearTblErr s).pkPad = s.pkPad := rfl
@[simp] theorem clearTblErr_pkSyms (s : State) : (clearTblErr s).pkSyms = s.pkSyms := rfl
@[simp] theorem clearTblErr_pkBytes (s : State) : (clearTblErr s).pkBytes = s.pkBytes := rfl
@[simp] theorem clearTblErr_pkErr (s : State) : (clearTblErr s).pkErr = s.pkErr := rfl
@[simp] theorem clearTblErr_pkSub (s : State) : (clearTblErr s).pkSub = s.pkSub := rfl
@[simp] theorem clearTblErr_pkBadSym (s : State) : (clearTblErr s).pkBadSym = s.pkBadSym := rfl
@[simp] theorem clearTblErr_upBuf (s : State) : (clearTblErr s).upBuf = s.upBuf := rfl
@[simp] theorem clearTblErr_upSyms (s : State) : (clearTblErr s).upSyms = s.upSyms := rfl
@[simp] theorem clearTblErr_upBits (s : State) : (clearTblErr s).upBits = s.upBits := rfl
@[simp] theorem clearTblErr_upErr (s : State) : (clearTblErr s).upErr = s.upErr := rfl
@[simp] theorem clearTblErr_upSub (s : State) : (clearTblErr s).upSub = s.upSub := rfl
@[simp] theorem clearTblErr_halt (s : State) : (clearTblErr s).halt = s.halt := rfl
@[simp] theorem clearTblErr_cmdWords (s : State) : (clearTblErr s).cmdWords = s.cmdWords := rfl
@[simp] theorem clearTblErr_cq (s : State) : (clearTblErr s).cq = s.cq := rfl
@[simp] theorem clearTblErr_pko (s : State) : (clearTblErr s).pko = s.pko := rfl
@[simp] theorem clearTblErr_upo (s : State) : (clearTblErr s).upo = s.upo := rfl

/-! ### clearPkErr -/

@[simp] theorem clearPkErr_table (s : State) : (clearPkErr s).table = s.table := rfl
@[simp] theorem clearPkErr_tblErr (s : State) : (clearPkErr s).tblErr = s.tblErr := rfl
@[simp] theorem clearPkErr_tblSub (s : State) : (clearPkErr s).tblSub = s.tblSub := rfl
@[simp] theorem clearPkErr_tblErrSym (s : State) : (clearPkErr s).tblErrSym = s.tblErrSym := rfl
@[simp] theorem clearPkErr_pkAcc (s : State) : (clearPkErr s).pkAcc = s.pkAcc := rfl
@[simp] theorem clearPkErr_pkPad (s : State) : (clearPkErr s).pkPad = s.pkPad := rfl
@[simp] theorem clearPkErr_pkSyms (s : State) : (clearPkErr s).pkSyms = s.pkSyms := rfl
@[simp] theorem clearPkErr_pkBytes (s : State) : (clearPkErr s).pkBytes = s.pkBytes := rfl
@[simp] theorem clearPkErr_pkErr (s : State) : (clearPkErr s).pkErr = 0 := rfl
@[simp] theorem clearPkErr_pkSub (s : State) : (clearPkErr s).pkSub = 0 := rfl
@[simp] theorem clearPkErr_pkBadSym (s : State) : (clearPkErr s).pkBadSym = 0 := rfl
@[simp] theorem clearPkErr_upBuf (s : State) : (clearPkErr s).upBuf = s.upBuf := rfl
@[simp] theorem clearPkErr_upSyms (s : State) : (clearPkErr s).upSyms = s.upSyms := rfl
@[simp] theorem clearPkErr_upBits (s : State) : (clearPkErr s).upBits = s.upBits := rfl
@[simp] theorem clearPkErr_upErr (s : State) : (clearPkErr s).upErr = s.upErr := rfl
@[simp] theorem clearPkErr_upSub (s : State) : (clearPkErr s).upSub = s.upSub := rfl
@[simp] theorem clearPkErr_halt (s : State) : (clearPkErr s).halt = s.halt := rfl
@[simp] theorem clearPkErr_cmdWords (s : State) : (clearPkErr s).cmdWords = s.cmdWords := rfl
@[simp] theorem clearPkErr_cq (s : State) : (clearPkErr s).cq = s.cq := rfl
@[simp] theorem clearPkErr_pko (s : State) : (clearPkErr s).pko = s.pko := rfl
@[simp] theorem clearPkErr_upo (s : State) : (clearPkErr s).upo = s.upo := rfl

/-! ### clearUpErr -/

@[simp] theorem clearUpErr_table (s : State) : (clearUpErr s).table = s.table := rfl
@[simp] theorem clearUpErr_tblErr (s : State) : (clearUpErr s).tblErr = s.tblErr := rfl
@[simp] theorem clearUpErr_tblSub (s : State) : (clearUpErr s).tblSub = s.tblSub := rfl
@[simp] theorem clearUpErr_tblErrSym (s : State) : (clearUpErr s).tblErrSym = s.tblErrSym := rfl
@[simp] theorem clearUpErr_pkAcc (s : State) : (clearUpErr s).pkAcc = s.pkAcc := rfl
@[simp] theorem clearUpErr_pkPad (s : State) : (clearUpErr s).pkPad = s.pkPad := rfl
@[simp] theorem clearUpErr_pkSyms (s : State) : (clearUpErr s).pkSyms = s.pkSyms := rfl
@[simp] theorem clearUpErr_pkBytes (s : State) : (clearUpErr s).pkBytes = s.pkBytes := rfl
@[simp] theorem clearUpErr_pkErr (s : State) : (clearUpErr s).pkErr = s.pkErr := rfl
@[simp] theorem clearUpErr_pkSub (s : State) : (clearUpErr s).pkSub = s.pkSub := rfl
@[simp] theorem clearUpErr_pkBadSym (s : State) : (clearUpErr s).pkBadSym = s.pkBadSym := rfl
@[simp] theorem clearUpErr_upBuf (s : State) : (clearUpErr s).upBuf = s.upBuf := rfl
@[simp] theorem clearUpErr_upSyms (s : State) : (clearUpErr s).upSyms = s.upSyms := rfl
@[simp] theorem clearUpErr_upBits (s : State) : (clearUpErr s).upBits = s.upBits := rfl
@[simp] theorem clearUpErr_upErr (s : State) : (clearUpErr s).upErr = 0 := rfl
@[simp] theorem clearUpErr_upSub (s : State) : (clearUpErr s).upSub = 0 := rfl
@[simp] theorem clearUpErr_halt (s : State) : (clearUpErr s).halt = s.halt := rfl
@[simp] theorem clearUpErr_cmdWords (s : State) : (clearUpErr s).cmdWords = s.cmdWords := rfl
@[simp] theorem clearUpErr_cq (s : State) : (clearUpErr s).cq = s.cq := rfl
@[simp] theorem clearUpErr_pko (s : State) : (clearUpErr s).pko = s.pko := rfl
@[simp] theorem clearUpErr_upo (s : State) : (clearUpErr s).upo = s.upo := rfl

/-! ### hostWrite -/

@[simp] theorem hostWrite_table (w : Word) (s : State) : (hostWrite w s).table = s.table := rfl
@[simp] theorem hostWrite_tblErr (w : Word) (s : State) : (hostWrite w s).tblErr = s.tblErr := rfl
@[simp] theorem hostWrite_tblSub (w : Word) (s : State) : (hostWrite w s).tblSub = s.tblSub := rfl
@[simp] theorem hostWrite_tblErrSym (w : Word) (s : State) : (hostWrite w s).tblErrSym = s.tblErrSym := rfl
@[simp] theorem hostWrite_pkAcc (w : Word) (s : State) : (hostWrite w s).pkAcc = s.pkAcc := rfl
@[simp] theorem hostWrite_pkPad (w : Word) (s : State) : (hostWrite w s).pkPad = s.pkPad := rfl
@[simp] theorem hostWrite_pkSyms (w : Word) (s : State) : (hostWrite w s).pkSyms = s.pkSyms := rfl
@[simp] theorem hostWrite_pkBytes (w : Word) (s : State) : (hostWrite w s).pkBytes = s.pkBytes := rfl
@[simp] theorem hostWrite_pkErr (w : Word) (s : State) : (hostWrite w s).pkErr = s.pkErr := rfl
@[simp] theorem hostWrite_pkSub (w : Word) (s : State) : (hostWrite w s).pkSub = s.pkSub := rfl
@[simp] theorem hostWrite_pkBadSym (w : Word) (s : State) : (hostWrite w s).pkBadSym = s.pkBadSym := rfl
@[simp] theorem hostWrite_upBuf (w : Word) (s : State) : (hostWrite w s).upBuf = s.upBuf := rfl
@[simp] theorem hostWrite_upSyms (w : Word) (s : State) : (hostWrite w s).upSyms = s.upSyms := rfl
@[simp] theorem hostWrite_upBits (w : Word) (s : State) : (hostWrite w s).upBits = s.upBits := rfl
@[simp] theorem hostWrite_upErr (w : Word) (s : State) : (hostWrite w s).upErr = s.upErr := rfl
@[simp] theorem hostWrite_upSub (w : Word) (s : State) : (hostWrite w s).upSub = s.upSub := rfl
@[simp] theorem hostWrite_halt (w : Word) (s : State) : (hostWrite w s).halt = s.halt := rfl
@[simp] theorem hostWrite_cmdWords (w : Word) (s : State) : (hostWrite w s).cmdWords = s.cmdWords := rfl
@[simp] theorem hostWrite_cq (w : Word) (s : State) : (hostWrite w s).cq = s.cq ++ [w] := rfl
@[simp] theorem hostWrite_pko (w : Word) (s : State) : (hostWrite w s).pko = s.pko := rfl
@[simp] theorem hostWrite_upo (w : Word) (s : State) : (hostWrite w s).upo = s.upo := rfl

/-! ### dropPko -/

@[simp] theorem dropPko_table (s : State) : (dropPko s).table = s.table := rfl
@[simp] theorem dropPko_tblErr (s : State) : (dropPko s).tblErr = s.tblErr := rfl
@[simp] theorem dropPko_tblSub (s : State) : (dropPko s).tblSub = s.tblSub := rfl
@[simp] theorem dropPko_tblErrSym (s : State) : (dropPko s).tblErrSym = s.tblErrSym := rfl
@[simp] theorem dropPko_pkAcc (s : State) : (dropPko s).pkAcc = s.pkAcc := rfl
@[simp] theorem dropPko_pkPad (s : State) : (dropPko s).pkPad = s.pkPad := rfl
@[simp] theorem dropPko_pkSyms (s : State) : (dropPko s).pkSyms = s.pkSyms := rfl
@[simp] theorem dropPko_pkBytes (s : State) : (dropPko s).pkBytes = s.pkBytes := rfl
@[simp] theorem dropPko_pkErr (s : State) : (dropPko s).pkErr = s.pkErr := rfl
@[simp] theorem dropPko_pkSub (s : State) : (dropPko s).pkSub = s.pkSub := rfl
@[simp] theorem dropPko_pkBadSym (s : State) : (dropPko s).pkBadSym = s.pkBadSym := rfl
@[simp] theorem dropPko_upBuf (s : State) : (dropPko s).upBuf = s.upBuf := rfl
@[simp] theorem dropPko_upSyms (s : State) : (dropPko s).upSyms = s.upSyms := rfl
@[simp] theorem dropPko_upBits (s : State) : (dropPko s).upBits = s.upBits := rfl
@[simp] theorem dropPko_upErr (s : State) : (dropPko s).upErr = s.upErr := rfl
@[simp] theorem dropPko_upSub (s : State) : (dropPko s).upSub = s.upSub := rfl
@[simp] theorem dropPko_halt (s : State) : (dropPko s).halt = s.halt := rfl
@[simp] theorem dropPko_cmdWords (s : State) : (dropPko s).cmdWords = s.cmdWords := rfl
@[simp] theorem dropPko_cq (s : State) : (dropPko s).cq = s.cq := rfl
@[simp] theorem dropPko_pko (s : State) : (dropPko s).pko = s.pko.drop 1 := rfl
@[simp] theorem dropPko_upo (s : State) : (dropPko s).upo = s.upo := rfl

/-! ### dropUpo -/

@[simp] theorem dropUpo_table (s : State) : (dropUpo s).table = s.table := rfl
@[simp] theorem dropUpo_tblErr (s : State) : (dropUpo s).tblErr = s.tblErr := rfl
@[simp] theorem dropUpo_tblSub (s : State) : (dropUpo s).tblSub = s.tblSub := rfl
@[simp] theorem dropUpo_tblErrSym (s : State) : (dropUpo s).tblErrSym = s.tblErrSym := rfl
@[simp] theorem dropUpo_pkAcc (s : State) : (dropUpo s).pkAcc = s.pkAcc := rfl
@[simp] theorem dropUpo_pkPad (s : State) : (dropUpo s).pkPad = s.pkPad := rfl
@[simp] theorem dropUpo_pkSyms (s : State) : (dropUpo s).pkSyms = s.pkSyms := rfl
@[simp] theorem dropUpo_pkBytes (s : State) : (dropUpo s).pkBytes = s.pkBytes := rfl
@[simp] theorem dropUpo_pkErr (s : State) : (dropUpo s).pkErr = s.pkErr := rfl
@[simp] theorem dropUpo_pkSub (s : State) : (dropUpo s).pkSub = s.pkSub := rfl
@[simp] theorem dropUpo_pkBadSym (s : State) : (dropUpo s).pkBadSym = s.pkBadSym := rfl
@[simp] theorem dropUpo_upBuf (s : State) : (dropUpo s).upBuf = s.upBuf := rfl
@[simp] theorem dropUpo_upSyms (s : State) : (dropUpo s).upSyms = s.upSyms := rfl
@[simp] theorem dropUpo_upBits (s : State) : (dropUpo s).upBits = s.upBits := rfl
@[simp] theorem dropUpo_upErr (s : State) : (dropUpo s).upErr = s.upErr := rfl
@[simp] theorem dropUpo_upSub (s : State) : (dropUpo s).upSub = s.upSub := rfl
@[simp] theorem dropUpo_halt (s : State) : (dropUpo s).halt = s.halt := rfl
@[simp] theorem dropUpo_cmdWords (s : State) : (dropUpo s).cmdWords = s.cmdWords := rfl
@[simp] theorem dropUpo_cq (s : State) : (dropUpo s).cq = s.cq := rfl
@[simp] theorem dropUpo_pko (s : State) : (dropUpo s).pko = s.pko := rfl
@[simp] theorem dropUpo_upo (s : State) : (dropUpo s).upo = s.upo.drop 1 := rfl

/-! ### raiseErr: the fields no error writes, then per error the fields an error can write -/

@[simp] theorem raiseErr_pkPad (e : Err) (s : State) : (raiseErr e s).pkPad = s.pkPad := by cases e <;> rfl
@[simp] theorem raiseErr_pkSyms (e : Err) (s : State) : (raiseErr e s).pkSyms = s.pkSyms := by cases e <;> rfl
@[simp] theorem raiseErr_pkBytes (e : Err) (s : State) : (raiseErr e s).pkBytes = s.pkBytes := by cases e <;> rfl
@[simp] theorem raiseErr_upSyms (e : Err) (s : State) : (raiseErr e s).upSyms = s.upSyms := by cases e <;> rfl
@[simp] theorem raiseErr_upBits (e : Err) (s : State) : (raiseErr e s).upBits = s.upBits := by cases e <;> rfl
@[simp] theorem raiseErr_halt (e : Err) (s : State) : (raiseErr e s).halt = s.halt := by cases e <;> rfl
@[simp] theorem raiseErr_cmdWords (e : Err) (s : State) : (raiseErr e s).cmdWords = s.cmdWords := by cases e <;> rfl
@[simp] theorem raiseErr_cq (e : Err) (s : State) : (raiseErr e s).cq = s.cq := by cases e <;> rfl
@[simp] theorem raiseErr_pko (e : Err) (s : State) : (raiseErr e s).pko = s.pko := by cases e <;> rfl
@[simp] theorem raiseErr_upo (e : Err) (s : State) : (raiseErr e s).upo = s.upo := by cases e <;> rfl

@[simp] theorem raise_unknownSymbol_table (sym : Byte) (s : State) : (raiseErr (.unknownSymbol sym) s).table = s.table := rfl
@[simp] theorem raise_unknownSymbol_tblErr (sym : Byte) (s : State) : (raiseErr (.unknownSymbol sym) s).tblErr = s.tblErr := rfl
@[simp] theorem raise_unknownSymbol_tblSub (sym : Byte) (s : State) : (raiseErr (.unknownSymbol sym) s).tblSub = s.tblSub := rfl
@[simp] theorem raise_unknownSymbol_tblErrSym (sym : Byte) (s : State) : (raiseErr (.unknownSymbol sym) s).tblErrSym = s.tblErrSym := rfl
@[simp] theorem raise_unknownSymbol_pkAcc (sym : Byte) (s : State) : (raiseErr (.unknownSymbol sym) s).pkAcc = [] := rfl
@[simp] theorem raise_unknownSymbol_pkErr (sym : Byte) (s : State) : (raiseErr (.unknownSymbol sym) s).pkErr = 1 := rfl
@[simp] theorem raise_unknownSymbol_pkSub (sym : Byte) (s : State) : (raiseErr (.unknownSymbol sym) s).pkSub = 0 := rfl
@[simp] theorem raise_unknownSymbol_pkBadSym (sym : Byte) (s : State) : (raiseErr (.unknownSymbol sym) s).pkBadSym = sym := rfl
@[simp] theorem raise_unknownSymbol_upBuf (sym : Byte) (s : State) : (raiseErr (.unknownSymbol sym) s).upBuf = s.upBuf := rfl
@[simp] theorem raise_unknownSymbol_upErr (sym : Byte) (s : State) : (raiseErr (.unknownSymbol sym) s).upErr = s.upErr := rfl
@[simp] theorem raise_unknownSymbol_upSub (sym : Byte) (s : State) : (raiseErr (.unknownSymbol sym) s).upSub = s.upSub := rfl

@[simp] theorem raise_emptyCode_table (sym : Byte) (s : State) : (raiseErr (.emptyCode sym) s).table = emptyTable := rfl
@[simp] theorem raise_emptyCode_tblErr (sym : Byte) (s : State) : (raiseErr (.emptyCode sym) s).tblErr = 2 := rfl
@[simp] theorem raise_emptyCode_tblSub (sym : Byte) (s : State) : (raiseErr (.emptyCode sym) s).tblSub = 1 := rfl
@[simp] theorem raise_emptyCode_tblErrSym (sym : Byte) (s : State) : (raiseErr (.emptyCode sym) s).tblErrSym = sym := rfl
@[simp] theorem raise_emptyCode_pkAcc (sym : Byte) (s : State) : (raiseErr (.emptyCode sym) s).pkAcc = s.pkAcc := rfl
@[simp] theorem raise_emptyCode_pkErr (sym : Byte) (s : State) : (raiseErr (.emptyCode sym) s).pkErr = s.pkErr := rfl
@[simp] theorem raise_emptyCode_pkSub (sym : Byte) (s : State) : (raiseErr (.emptyCode sym) s).pkSub = s.pkSub := rfl
@[simp] theorem raise_emptyCode_pkBadSym (sym : Byte) (s : State) : (raiseErr (.emptyCode sym) s).pkBadSym = s.pkBadSym := rfl
@[simp] theorem raise_emptyCode_upBuf (sym : Byte) (s : State) : (raiseErr (.emptyCode sym) s).upBuf = s.upBuf := rfl
@[simp] theorem raise_emptyCode_upErr (sym : Byte) (s : State) : (raiseErr (.emptyCode sym) s).upErr = s.upErr := rfl
@[simp] theorem raise_emptyCode_upSub (sym : Byte) (s : State) : (raiseErr (.emptyCode sym) s).upSub = s.upSub := rfl

@[simp] theorem raise_codeTooLong_table (sym : Byte) (s : State) : (raiseErr (.codeTooLong sym) s).table = emptyTable := rfl
@[simp] theorem raise_codeTooLong_tblErr (sym : Byte) (s : State) : (raiseErr (.codeTooLong sym) s).tblErr = 2 := rfl
@[simp] theorem raise_codeTooLong_tblSub (sym : Byte) (s : State) : (raiseErr (.codeTooLong sym) s).tblSub = 2 := rfl
@[simp] theorem raise_codeTooLong_tblErrSym (sym : Byte) (s : State) : (raiseErr (.codeTooLong sym) s).tblErrSym = sym := rfl
@[simp] theorem raise_codeTooLong_pkAcc (sym : Byte) (s : State) : (raiseErr (.codeTooLong sym) s).pkAcc = s.pkAcc := rfl
@[simp] theorem raise_codeTooLong_pkErr (sym : Byte) (s : State) : (raiseErr (.codeTooLong sym) s).pkErr = s.pkErr := rfl
@[simp] theorem raise_codeTooLong_pkSub (sym : Byte) (s : State) : (raiseErr (.codeTooLong sym) s).pkSub = s.pkSub := rfl
@[simp] theorem raise_codeTooLong_pkBadSym (sym : Byte) (s : State) : (raiseErr (.codeTooLong sym) s).pkBadSym = s.pkBadSym := rfl
@[simp] theorem raise_codeTooLong_upBuf (sym : Byte) (s : State) : (raiseErr (.codeTooLong sym) s).upBuf = s.upBuf := rfl
@[simp] theorem raise_codeTooLong_upErr (sym : Byte) (s : State) : (raiseErr (.codeTooLong sym) s).upErr = s.upErr := rfl
@[simp] theorem raise_codeTooLong_upSub (sym : Byte) (s : State) : (raiseErr (.codeTooLong sym) s).upSub = s.upSub := rfl

@[simp] theorem raise_duplicateSymbol_table (sym : Byte) (s : State) : (raiseErr (.duplicateSymbol sym) s).table = emptyTable := rfl
@[simp] theorem raise_duplicateSymbol_tblErr (sym : Byte) (s : State) : (raiseErr (.duplicateSymbol sym) s).tblErr = 2 := rfl
@[simp] theorem raise_duplicateSymbol_tblSub (sym : Byte) (s : State) : (raiseErr (.duplicateSymbol sym) s).tblSub = 3 := rfl
@[simp] theorem raise_duplicateSymbol_tblErrSym (sym : Byte) (s : State) : (raiseErr (.duplicateSymbol sym) s).tblErrSym = sym := rfl
@[simp] theorem raise_duplicateSymbol_pkAcc (sym : Byte) (s : State) : (raiseErr (.duplicateSymbol sym) s).pkAcc = s.pkAcc := rfl
@[simp] theorem raise_duplicateSymbol_pkErr (sym : Byte) (s : State) : (raiseErr (.duplicateSymbol sym) s).pkErr = s.pkErr := rfl
@[simp] theorem raise_duplicateSymbol_pkSub (sym : Byte) (s : State) : (raiseErr (.duplicateSymbol sym) s).pkSub = s.pkSub := rfl
@[simp] theorem raise_duplicateSymbol_pkBadSym (sym : Byte) (s : State) : (raiseErr (.duplicateSymbol sym) s).pkBadSym = s.pkBadSym := rfl
@[simp] theorem raise_duplicateSymbol_upBuf (sym : Byte) (s : State) : (raiseErr (.duplicateSymbol sym) s).upBuf = s.upBuf := rfl
@[simp] theorem raise_duplicateSymbol_upErr (sym : Byte) (s : State) : (raiseErr (.duplicateSymbol sym) s).upErr = s.upErr := rfl
@[simp] theorem raise_duplicateSymbol_upSub (sym : Byte) (s : State) : (raiseErr (.duplicateSymbol sym) s).upSub = s.upSub := rfl

@[simp] theorem raise_overflow_table (s : State) : (raiseErr .overflow s).table = s.table := rfl
@[simp] theorem raise_overflow_tblErr (s : State) : (raiseErr .overflow s).tblErr = s.tblErr := rfl
@[simp] theorem raise_overflow_tblSub (s : State) : (raiseErr .overflow s).tblSub = s.tblSub := rfl
@[simp] theorem raise_overflow_tblErrSym (s : State) : (raiseErr .overflow s).tblErrSym = s.tblErrSym := rfl
@[simp] theorem raise_overflow_pkAcc (s : State) : (raiseErr .overflow s).pkAcc = s.pkAcc := rfl
@[simp] theorem raise_overflow_pkErr (s : State) : (raiseErr .overflow s).pkErr = s.pkErr := rfl
@[simp] theorem raise_overflow_pkSub (s : State) : (raiseErr .overflow s).pkSub = s.pkSub := rfl
@[simp] theorem raise_overflow_pkBadSym (s : State) : (raiseErr .overflow s).pkBadSym = s.pkBadSym := rfl
@[simp] theorem raise_overflow_upBuf (s : State) : (raiseErr .overflow s).upBuf = [] := rfl
@[simp] theorem raise_overflow_upErr (s : State) : (raiseErr .overflow s).upErr = 3 := rfl
@[simp] theorem raise_overflow_upSub (s : State) : (raiseErr .overflow s).upSub = 1 := rfl

@[simp] theorem raise_leftover_table (s : State) : (raiseErr .leftover s).table = s.table := rfl
@[simp] theorem raise_leftover_tblErr (s : State) : (raiseErr .leftover s).tblErr = s.tblErr := rfl
@[simp] theorem raise_leftover_tblSub (s : State) : (raiseErr .leftover s).tblSub = s.tblSub := rfl
@[simp] theorem raise_leftover_tblErrSym (s : State) : (raiseErr .leftover s).tblErrSym = s.tblErrSym := rfl
@[simp] theorem raise_leftover_pkAcc (s : State) : (raiseErr .leftover s).pkAcc = s.pkAcc := rfl
@[simp] theorem raise_leftover_pkErr (s : State) : (raiseErr .leftover s).pkErr = s.pkErr := rfl
@[simp] theorem raise_leftover_pkSub (s : State) : (raiseErr .leftover s).pkSub = s.pkSub := rfl
@[simp] theorem raise_leftover_pkBadSym (s : State) : (raiseErr .leftover s).pkBadSym = s.pkBadSym := rfl
@[simp] theorem raise_leftover_upBuf (s : State) : (raiseErr .leftover s).upBuf = [] := rfl
@[simp] theorem raise_leftover_upErr (s : State) : (raiseErr .leftover s).upErr = 3 := rfl
@[simp] theorem raise_leftover_upSub (s : State) : (raiseErr .leftover s).upSub = 2 := rfl

@[simp] theorem raise_badNv_table (s : State) : (raiseErr .badNv s).table = s.table := rfl
@[simp] theorem raise_badNv_tblErr (s : State) : (raiseErr .badNv s).tblErr = s.tblErr := rfl
@[simp] theorem raise_badNv_tblSub (s : State) : (raiseErr .badNv s).tblSub = s.tblSub := rfl
@[simp] theorem raise_badNv_tblErrSym (s : State) : (raiseErr .badNv s).tblErrSym = s.tblErrSym := rfl
@[simp] theorem raise_badNv_pkAcc (s : State) : (raiseErr .badNv s).pkAcc = s.pkAcc := rfl
@[simp] theorem raise_badNv_pkErr (s : State) : (raiseErr .badNv s).pkErr = s.pkErr := rfl
@[simp] theorem raise_badNv_pkSub (s : State) : (raiseErr .badNv s).pkSub = s.pkSub := rfl
@[simp] theorem raise_badNv_pkBadSym (s : State) : (raiseErr .badNv s).pkBadSym = s.pkBadSym := rfl
@[simp] theorem raise_badNv_upBuf (s : State) : (raiseErr .badNv s).upBuf = [] := rfl
@[simp] theorem raise_badNv_upErr (s : State) : (raiseErr .badNv s).upErr = 4 := rfl
@[simp] theorem raise_badNv_upSub (s : State) : (raiseErr .badNv s).upSub = 1 := rfl

/-! ### The test of an engine's error field -/

@[simp] theorem failed_tbl (s : State) : s.failed .tbl = (s.tblErr != 0) := rfl
@[simp] theorem failed_pk (s : State) : s.failed .pk = (s.pkErr != 0) := rfl
@[simp] theorem failed_up (s : State) : s.failed .up = (s.upErr != 0) := rfl

theorem failed_tbl_of_ne (s : State) (h : s.tblErr ≠ 0) : s.failed .tbl = true := bne_iff_ne.mpr h
theorem failed_tbl_of_eq (s : State) (h : s.tblErr = 0) : s.failed .tbl = false := by simp [h]
theorem failed_pk_of_ne (s : State) (h : s.pkErr ≠ 0) : s.failed .pk = true := bne_iff_ne.mpr h
theorem failed_pk_of_eq (s : State) (h : s.pkErr = 0) : s.failed .pk = false := by simp [h]
theorem failed_up_of_ne (s : State) (h : s.upErr ≠ 0) : s.failed .up = true := bne_iff_ne.mpr h
theorem failed_up_of_eq (s : State) (h : s.upErr = 0) : s.failed .up = false := by simp [h]

end Sys2Proof.Machine
end

