-- ==== Sys2Proof/Laws/Pack.lean ====
section
/-! SUPPORT. The pack engine's shared operations: what `pkAppend` and `pkFlushPending` leave (R132, R137). -/

namespace Sys2Proof.Machine

open Sys2Proof.Safety

/-- Everything `PkAppend(x)` does when at most 7 bits wait (R132): the full groups of the waiting bits and `x` are
pushed and counted, and the bits after them wait. -/
theorem pkAppend_eq (x : BitString) (s : State) (h : s.pkAcc.length ≤ 7) :
    pkAppend x s = { s with
      pko := s.pko ++ fullBytes (s.pkAcc ++ x)
      pkBytes := s.pkBytes + BitVec.ofNat 32 ((s.pkAcc ++ x).length / 8)
      pkAcc := restBits (s.pkAcc ++ x) } := by
  induction x generalizing s with
  | nil =>
    have h8 : s.pkAcc.length < 8 := by omega
    simp [pkAppend, fullBytes_short _ h8, restBits_short _ h8, Nat.div_eq_of_lt h8]
  | cons b x ih =>
    rw [pkAppend, pkAppendBit]
    split
    · rename_i h8
      have hx : s.pkAcc ++ b :: x = (s.pkAcc ++ [b]) ++ x := by simp
      rw [ih _ (by simp), hx, fullBytes_group _ x h8, restBits_group _ x h8, length_group_add _ x h8]
      simp [pushPko, setPkAcc, counter_add_one]
    · rename_i h8
      have hl : (s.pkAcc ++ [b]).length ≤ 7 := by simp at h8 ⊢; omega
      rw [ih _ (by simpa using hl)]
      simp [setPkAcc]

/-- Everything PK_FLUSH does to an engine without an error (R137). -/
theorem pkFlushPending_eq (s : State) :
    pkFlushPending s = if s.pkAcc = [] then { s with pkPad := 0 } else { s with
      pko := s.pko ++ [padToByte s.pkAcc]
      pkBytes := s.pkBytes + 1
      pkPad := 8 - s.pkAcc.length
      pkAcc := [] } := by
  simp only [pkFlushPending, List.length_eq_zero_iff]
  split <;> rfl

end Sys2Proof.Machine
end

