-- ==== Sys2Proof/Laws/Table.lean ====
section
/-! SUPPORT. The code table: reads after writes, the longest code, and the lowest match (R25, R152). -/

namespace Sys2Proof.Machine

@[simp] theorem read_emptyTable (sym : Byte) : Table.read emptyTable sym = none := by
  simp [Table.read, emptyTable]

@[simp] theorem read_write_same (T : Table) (sym : Byte) (code : BitString) :
    (T.write sym code).read sym = some code := by
  simp [Table.read, Table.write]

theorem read_write_other (T : Table) (sym other : Byte) (code : BitString) (h : other ≠ sym) :
    (T.write sym code).read other = T.read other := by
  have hne : sym.toNat ≠ other.toNat := fun e => h (BitVec.eq_of_toNat_eq e.symm)
  simp [Table.read, Table.write, hne]

/-- Two tables that read the same at every symbol are the same table. -/
theorem table_ext (T U : Table) (h : ∀ sym, T.read sym = U.read sym) : T = U := by
  apply Vector.ext
  intro i hi
  have := h (BitVec.ofNat 8 i)
  simpa [Table.read, Nat.mod_eq_of_lt hi] using this

/-- A valid entry is an element of the table. -/
theorem read_mem (T : Table) (sym : Byte) : T.read sym ∈ T.toList := by
  simp [Table.read]

/-- Every element of the table is the entry of some symbol. -/
theorem exists_read_of_mem (T : Table) (e : Option BitString) (h : e ∈ T.toList) :
    ∃ sym, T.read sym = e := by
  obtain ⟨i, hi, rfl⟩ := List.getElem_of_mem h
  have hi' : i < 256 := by simpa using hi
  exact ⟨BitVec.ofNat 8 i, by simp [Table.read, Nat.mod_eq_of_lt hi']⟩

/-! ## MAXL -/

theorem le_foldr_max (l : List Nat) (n : Nat) (h : n ∈ l) : n ≤ l.foldr max 0 := by
  induction l with
  | nil => simp at h
  | cons a l ih =>
    rcases List.mem_cons.mp h with rfl | h
    · simp
    · simp [ih h]

theorem foldr_max_le (l : List Nat) (m : Nat) (h : ∀ n ∈ l, n ≤ m) : l.foldr max 0 ≤ m := by
  induction l with
  | nil => simp
  | cons a l ih => simp_all

/-- No valid code is longer than MAXL (R25). -/
theorem length_le_maxl (T : Table) (sym : Byte) (code : BitString) (h : T.read sym = some code) :
    code.length ≤ T.maxl := by
  apply le_foldr_max
  have := List.mem_map_of_mem (f := entryLen) (read_mem T sym)
  simpa [h, entryLen] using this

/-- MAXL is at most any bound on the lengths of the valid codes. -/
theorem maxl_le (T : Table) (m : Nat) (h : ∀ sym code, T.read sym = some code → code.length ≤ m) :
    T.maxl ≤ m := by
  apply foldr_max_le
  intro n hn
  obtain ⟨e, he, rfl⟩ := List.mem_map.mp hn
  obtain ⟨sym, rfl⟩ := exists_read_of_mem T e he
  cases hr : T.read sym with
  | none => simp [entryLen]
  | some code => simpa [entryLen] using h sym code hr

/-! ## The lookup -/

/-- A symbol is found only when its code is exactly the string (R152). -/
theorem read_of_lowestMatch (T : Table) (x : BitString) (sym : Byte) (h : T.lowestMatch x = some sym) :
    T.read sym = some x := by
  obtain ⟨n, hn, rfl⟩ := Option.map_eq_some_iff.mp h
  obtain ⟨hlt, hp, -⟩ := List.findIdx?_eq_some_iff_getElem.mp hn
  have hlt' : n < 256 := by simpa using hlt
  have hx : T[n] = some x := by simpa using hp
  simpa [Table.read, Nat.mod_eq_of_lt hlt'] using hx

/-- No symbol below the one found has the string as its code (R152). -/
theorem lowestMatch_le (T : Table) (x : BitString) (sym other : Byte) (h : T.lowestMatch x = some sym)
    (ho : T.read other = some x) : sym.toNat ≤ other.toNat := by
  obtain ⟨n, hn, rfl⟩ := Option.map_eq_some_iff.mp h
  obtain ⟨hlt, -, hmin⟩ := List.findIdx?_eq_some_iff_getElem.mp hn
  have hlt' : n < 256 := by simpa using hlt
  by_contra hc
  have hj : other.toNat < n := by simpa [Nat.mod_eq_of_lt hlt'] using hc
  have := hmin other.toNat hj
  simp only [Table.read] at ho
  simp [ho] at this

/-- Nothing is found exactly when no symbol has the string as its code (R152). -/
theorem lowestMatch_none (T : Table) (x : BitString) :
    T.lowestMatch x = none ↔ ∀ sym, T.read sym ≠ some x := by
  simp only [Table.lowestMatch, Option.map_eq_none_iff, List.findIdx?_eq_none_iff]
  constructor
  · intro h sym hs
    have := h _ (read_mem T sym)
    simp [hs] at this
  · intro h e he
    obtain ⟨sym, rfl⟩ := exists_read_of_mem T e he
    simpa using h sym

/-- A string that is only one symbol's code is found as that symbol. -/
theorem lowestMatch_unique (T : Table) (x : BitString) (sym : Byte) (hs : T.read sym = some x)
    (hu : ∀ other, T.read other = some x → other = sym) : T.lowestMatch x = some sym := by
  cases h : T.lowestMatch x with
  | none => exact absurd hs ((lowestMatch_none T x).mp h sym)
  | some other => rw [hu other (read_of_lowestMatch T x other h)]

end Sys2Proof.Machine
end

