-- ==== Sys2Proof/Laws/Unpack.lean ====
section
/-! SUPPORT. The unpack engine's shared operations: what `upBit` and `upFeed` leave (R153), and the source's unpacker
on the bits of a packed stream (R160). -/

namespace Sys2Proof.Safety

open Sys2Proof.Machine

/-! ## The source's unpacker: its three cases at one bit -/

theorem unpackBits_match (T : Table) (buf x : BitString) (b : Bool) (sym : Byte)
    (h : T.lowestMatch (buf ++ [b]) = some sym) :
    unpackBits T buf (b :: x) =
      ⟨sym :: (unpackBits T [] x).syms, (unpackBits T [] x).buf, (unpackBits T [] x).used + 1,
        (unpackBits T [] x).overflow⟩ := by
  simp only [unpackBits, h]

theorem unpackBits_overflow (T : Table) (buf x : BitString) (b : Bool)
    (h : T.lowestMatch (buf ++ [b]) = none) (ho : T.maxl < (buf ++ [b]).length) :
    unpackBits T buf (b :: x) = ⟨[], [], 1, true⟩ := by
  simp only [unpackBits, h, if_pos ho]

theorem unpackBits_wait (T : Table) (buf x : BitString) (b : Bool)
    (h : T.lowestMatch (buf ++ [b]) = none) (ho : ¬ T.maxl < (buf ++ [b]).length) :
    unpackBits T buf (b :: x) =
      ⟨(unpackBits T (buf ++ [b]) x).syms, (unpackBits T (buf ++ [b]) x).buf,
        (unpackBits T (buf ++ [b]) x).used + 1, (unpackBits T (buf ++ [b]) x).overflow⟩ := by
  simp only [unpackBits, h, if_neg ho]

@[simp] theorem unpackBits_nil (T : Table) (buf : BitString) : unpackBits T buf [] = ⟨[], buf, 0, false⟩ := rfl

/-- What can happen at one bit (R153): a match, an overflow, or neither. -/
theorem bit_cases (T : Table) (x : BitString) :
    (∃ sym, T.lowestMatch x = some sym) ∨ (T.lowestMatch x = none ∧ T.maxl < x.length) ∨
      (T.lowestMatch x = none ∧ ¬ T.maxl < x.length) := by
  cases h : T.lowestMatch x with
  | some sym => exact .inl ⟨sym, rfl⟩
  | none => exact .inr (by by_cases ho : T.maxl < x.length <;> simp [ho])

/-- Bits given in two parts are unpacked as the two parts in turn, when the first does not overflow. -/
theorem unpackBits_append (T : Table) (buf x y : BitString) (h : (unpackBits T buf x).overflow = false) :
    unpackBits T buf (x ++ y) =
      ⟨(unpackBits T buf x).syms ++ (unpackBits T (unpackBits T buf x).buf y).syms,
        (unpackBits T (unpackBits T buf x).buf y).buf,
        (unpackBits T buf x).used + (unpackBits T (unpackBits T buf x).buf y).used,
        (unpackBits T (unpackBits T buf x).buf y).overflow⟩ := by
  induction x generalizing buf with
  | nil => simp
  | cons b x ih =>
    rw [List.cons_append]
    obtain ⟨sym, hm⟩ | ⟨hm, ho⟩ | ⟨hm, ho⟩ := bit_cases T (buf ++ [b])
    · rw [unpackBits_match T buf x b sym hm] at h ⊢
      rw [unpackBits_match T buf _ b sym hm, ih [] h]
      simp [Nat.add_right_comm]
    · rw [unpackBits_overflow T buf x b hm ho] at h
      cases h
    · rw [unpackBits_wait T buf x b hm ho] at h ⊢
      rw [unpackBits_wait T buf _ b hm ho, ih _ h]
      simp [Nat.add_right_comm]

/-- Once it has overflowed, further bits change nothing (R151). -/
theorem unpackBits_append_overflow (T : Table) (buf x y : BitString) (h : (unpackBits T buf x).overflow = true) :
    unpackBits T buf (x ++ y) = unpackBits T buf x := by
  induction x generalizing buf with
  | nil => cases h
  | cons b x ih =>
    rw [List.cons_append]
    obtain ⟨sym, hm⟩ | ⟨hm, ho⟩ | ⟨hm, ho⟩ := bit_cases T (buf ++ [b])
    · rw [unpackBits_match T buf x b sym hm] at h ⊢
      rw [unpackBits_match T buf _ b sym hm, ih [] h]
    · rw [unpackBits_overflow T buf x b hm ho, unpackBits_overflow T buf _ b hm ho]
    · rw [unpackBits_wait T buf x b hm ho] at h ⊢
      rw [unpackBits_wait T buf _ b hm ho, ih _ h]

/-- The buffer after some bits is at most MAXL bits long, or as long as it was before them (R31). -/
theorem unpackBits_buf_length (T : Table) (buf x : BitString) :
    (unpackBits T buf x).buf.length ≤ max buf.length T.maxl := by
  induction x generalizing buf with
  | nil => simp
  | cons b x ih =>
    obtain ⟨sym, hm⟩ | ⟨hm, ho⟩ | ⟨hm, ho⟩ := bit_cases T (buf ++ [b])
    · rw [unpackBits_match T buf x b sym hm]
      exact le_trans (ih []) (by simp)
    · rw [unpackBits_overflow T buf x b hm ho]
      simp
    · rw [unpackBits_wait T buf x b hm ho]
      exact le_trans (ih _) (by omega)

/-- An overflow empties the buffer (R151). -/
theorem unpackBits_overflow_buf (T : Table) (buf x : BitString) (h : (unpackBits T buf x).overflow = true) :
    (unpackBits T buf x).buf = [] := by
  induction x generalizing buf with
  | nil => cases h
  | cons b x ih =>
    obtain ⟨sym, hm⟩ | ⟨hm, ho⟩ | ⟨hm, ho⟩ := bit_cases T (buf ++ [b])
    · rw [unpackBits_match T buf x b sym hm] at h ⊢; exact ih _ h
    · rw [unpackBits_overflow T buf x b hm ho]
    · rw [unpackBits_wait T buf x b hm ho] at h ⊢; exact ih _ h

/-- Some bits emit at most one symbol each (R156). -/
theorem unpackBits_syms_length (T : Table) (buf x : BitString) : (unpackBits T buf x).syms.length ≤ x.length := by
  induction x generalizing buf with
  | nil => simp
  | cons b x ih =>
    obtain ⟨sym, hm⟩ | ⟨hm, ho⟩ | ⟨hm, ho⟩ := bit_cases T (buf ++ [b])
    · rw [unpackBits_match T buf x b sym hm]; simpa using ih []
    · rw [unpackBits_overflow T buf x b hm ho]; simp
    · rw [unpackBits_wait T buf x b hm ho]; exact le_trans (ih _) (by simp)

/-- Reading one code of a prefix-free table, from any proper prefix of it, emits its symbol (R160, steps 2 to 4). -/
theorem unpackBits_code (T : Table) (hp : PrefixFree T) (sym : Byte) (buf x : BitString)
    (hr : T.read sym = some (buf ++ x)) (hx : x ≠ []) :
    unpackBits T buf x = ⟨[sym], [], x.length, false⟩ := by
  induction x generalizing buf with
  | nil => exact absurd rfl hx
  | cons b x ih =>
    have hcat : buf ++ b :: x = (buf ++ [b]) ++ x := by simp
    rw [hcat] at hr
    by_cases h0 : x = []
    · subst h0
      rw [List.append_nil] at hr
      have hm := lowestMatch_unique T (buf ++ [b]) sym hr (fun other ho => by
        by_contra hne
        exact hp other sym _ _ ho hr hne (List.prefix_refl _))
      rw [unpackBits_match T buf [] b sym hm]
      rfl
    · have hm : T.lowestMatch (buf ++ [b]) = none := by
        rw [lowestMatch_none]
        intro other ho
        by_cases hne : other = sym
        · subst hne
          rw [hr] at ho
          exact h0 (by simpa using ho)
        · exact hp other sym _ _ ho hr hne (List.prefix_append _ _)
      have hlen : ¬ T.maxl < (buf ++ [b]).length := by
        have h1 := length_le_maxl T sym _ hr
        have h2 : (buf ++ [b]).length ≤ ((buf ++ [b]) ++ x).length := by simp
        omega
      rw [unpackBits_wait T buf x b hm hlen, ih _ hr h0]
      rfl

/-- The source's unpacker gives back the symbols whose codes it reads (R160). -/
theorem unpackBits_codesOf (T : Table) (hp : PrefixFree T) (hne : ∀ sym code, T.read sym = some code → code ≠ [])
    (syms : List Byte) (hc : Covers T syms) :
    unpackBits T [] (codesOf T syms) = ⟨syms, [], (codesOf T syms).length, false⟩ := by
  induction syms with
  | nil => simp [codesOf]
  | cons sym syms ih =>
    obtain ⟨code, hr⟩ := hc sym (by simp)
    have h1 := unpackBits_code T hp sym [] code (by simpa using hr) (hne sym code hr)
    have h2 := ih (fun s hs => hc s (by simp [hs]))
    have hcons : codesOf T (sym :: syms) = code ++ codesOf T syms := by simp [codesOf, hr]
    rw [hcons, unpackBits_append T [] code _ (by rw [h1]), h1, h2]
    simp

end Sys2Proof.Safety

namespace Sys2Proof.Machine

open Sys2Proof.Safety

/-! ## The machine's bit loop -/

theorem upFeed_match (b : Bool) (x : BitString) (s : State) (sym : Byte)
    (h : s.table.lowestMatch (s.upBuf ++ [b]) = some sym) :
    upFeed (b :: x) s = upFeed x (setUpBuf [] (pushUpo sym (takeUpBit b s))) := by
  simp only [upFeed, upBit, h]

theorem upFeed_overflow (b : Bool) (x : BitString) (s : State)
    (h : s.table.lowestMatch (s.upBuf ++ [b]) = none) (ho : s.table.maxl < (s.upBuf ++ [b]).length) :
    upFeed (b :: x) s = raiseErr .overflow (takeUpBit b s) := by
  simp only [upFeed, upBit, h, if_pos ho]

theorem upFeed_wait (b : Bool) (x : BitString) (s : State)
    (h : s.table.lowestMatch (s.upBuf ++ [b]) = none) (ho : ¬ s.table.maxl < (s.upBuf ++ [b]).length) :
    upFeed (b :: x) s = upFeed x (takeUpBit b s) := by
  simp only [upFeed, upBit, h, if_neg ho]

/-- Everything the bit loop does (R153, R156, R157), in the terms of the source's unpacker. -/
theorem upFeed_eq (x : BitString) (s : State) :
    upFeed x s = { s with
      upBuf := (unpackBits s.table s.upBuf x).buf
      upo := s.upo ++ (unpackBits s.table s.upBuf x).syms
      upSyms := s.upSyms + BitVec.ofNat 32 (unpackBits s.table s.upBuf x).syms.length
      upBits := s.upBits + BitVec.ofNat 32 (unpackBits s.table s.upBuf x).used
      upErr := bif (unpackBits s.table s.upBuf x).overflow then 3 else s.upErr
      upSub := bif (unpackBits s.table s.upBuf x).overflow then 1 else s.upSub } := by
  induction x generalizing s with
  | nil => simp [upFeed]
  | cons b x ih =>
    obtain ⟨sym, hm⟩ | ⟨hm, ho⟩ | ⟨hm, ho⟩ := bit_cases s.table (s.upBuf ++ [b])
    · rw [unpackBits_match _ _ x b sym hm, upFeed_match b x s sym hm, ih]
      simp [pushUpo, setUpBuf, takeUpBit, counter_add_one]
    · rw [unpackBits_overflow _ _ x b hm ho, upFeed_overflow b x s hm ho]
      simp [raiseErr, Err.engine, Err.code, Err.sub, takeUpBit]
    · rw [unpackBits_wait _ _ x b hm ho, upFeed_wait b x s hm ho, ih]
      simp [takeUpBit, counter_add_one]

end Sys2Proof.Machine
end

