-- ==== Sys2Proof/Laws/Exec.lean ====
section
/-! SUPPORT. What the meanings leave alone, said once per shared operation and per engine (R107), and that every command
completes (R101). -/

namespace Sys2Proof.Machine

open Sys2Proof.Safety

/-- The invariant parts of the packer's append, whatever waits: only PK_ACC, PK_BYTES and PKO change. -/
theorem pkAppend_frame (x : BitString) (s : State) :
    ∃ acc n bs, pkAppend x s = { s with pkAcc := acc, pkBytes := n, pko := bs } := by
  induction x generalizing s with
  | nil => exact ⟨_, _, _, rfl⟩
  | cons b x ih =>
    rw [pkAppend, pkAppendBit]
    split
    · obtain ⟨acc, n, bs, h⟩ := ih (setPkAcc [] (pushPko (byteOf (s.pkAcc ++ [b])) s))
      exact ⟨acc, n, bs, h⟩
    · obtain ⟨acc, n, bs, h⟩ := ih (setPkAcc (s.pkAcc ++ [b]) s)
      exact ⟨acc, n, bs, h⟩

/-- What TBL_LD can do, said once (R111, R113 to R115): nothing, one of its three errors, or the load. -/
theorem tblLoad_cases (maxLen : Nat) (sym : Byte) (code : BitString) (s : State) :
    (s.tblErr ≠ 0 ∧ tblLoad maxLen sym code s = s) ∨
    (s.tblErr = 0 ∧ code.length = 0 ∧ tblLoad maxLen sym code s = raiseErr (.emptyCode sym) s) ∨
    (s.tblErr = 0 ∧ 0 < code.length ∧ maxLen < code.length ∧
      tblLoad maxLen sym code s = raiseErr (.codeTooLong sym) s) ∨
    (s.tblErr = 0 ∧ 0 < code.length ∧ code.length ≤ maxLen ∧ s.table.read sym ≠ none ∧
      tblLoad maxLen sym code s = raiseErr (.duplicateSymbol sym) s) ∨
    (s.tblErr = 0 ∧ 0 < code.length ∧ code.length ≤ maxLen ∧ s.table.read sym = none ∧
      tblLoad maxLen sym code s = setEntry sym code s) := by
  by_cases h0 : s.tblErr = 0
  · by_cases h1 : code.length = 0
    · exact .inr (.inl ⟨h0, h1, by rw [tblLoad, if_neg (by simp [h0]), if_pos h1]⟩)
    · by_cases h2 : maxLen < code.length
      · exact .inr (.inr (.inl ⟨h0, by omega, h2, by
          rw [tblLoad, if_neg (by simp [h0]), if_neg h1, if_pos h2]⟩))
      · cases h3 : s.table.read sym with
        | some c => exact .inr (.inr (.inr (.inl ⟨h0, by omega, by omega, by simp, by
            rw [tblLoad, if_neg (by simp [h0]), if_neg h1, if_neg h2, if_pos (by simp [h3])]⟩)))
        | none => exact .inr (.inr (.inr (.inr ⟨h0, by omega, by omega, rfl, by
            rw [tblLoad, if_neg (by simp [h0]), if_neg h1, if_neg h2, if_neg (by simp [h3])]⟩)))
  · exact .inl ⟨h0, by rw [tblLoad, if_pos (by simpa using h0)]⟩

/-- What PK_SYM can do, said once (R130, R131, R135). -/
theorem execPkSym_cases (sym : Byte) (s : State) :
    (s.pkErr ≠ 0 ∧ execPkSym sym s = .next s) ∨
    (s.pkErr = 0 ∧ s.table.read sym = none ∧ execPkSym sym s = .next (raiseErr (.unknownSymbol sym) s)) ∨
    (s.pkErr = 0 ∧ ∃ code, s.table.read sym = some code ∧
      execPkSym sym s = .next (countPkSym (pkAppend code s))) := by
  by_cases h0 : s.pkErr = 0
  · cases hr : s.table.read sym with
    | none => exact .inr (.inl ⟨h0, rfl, by simp [execPkSym, h0, hr]⟩)
    | some code => exact .inr (.inr ⟨h0, code, rfl, by simp [execPkSym, h0, hr]⟩)
  · exact .inl ⟨h0, by rw [execPkSym, if_pos (failed_pk_of_ne s h0)]⟩

/-- What UP_TAIL can do, said once (R150, R157). -/
theorem execUpTail_cases (b : Byte) (nv : BitVec 4) (s : State) :
    (s.upErr ≠ 0 ∧ execUpTail b nv s = .next s) ∨
    (s.upErr = 0 ∧ nvLegal nv = true ∧ execUpTail b nv s = .next (upFeed (leadingBits nv.toNat b) s)) ∨
    (s.upErr = 0 ∧ nvLegal nv = false ∧ execUpTail b nv s = .next (raiseErr .badNv s)) := by
  by_cases h0 : s.upErr = 0
  · cases hn : nvLegal nv with
    | true => exact .inr (.inl ⟨h0, rfl, by simp [execUpTail, h0, hn]⟩)
    | false => exact .inr (.inr ⟨h0, rfl, by simp [execUpTail, h0, hn]⟩)
  · exact .inl ⟨h0, by rw [execUpTail, if_pos (failed_up_of_ne s h0)]⟩

/-! ## Engine frames -/

theorem sameTbl_refl (s : State) : SameTbl s s := ⟨rfl, rfl, rfl, rfl⟩
theorem samePk_refl (s : State) : SamePk s s := ⟨rfl, rfl, rfl, rfl, rfl, rfl, rfl, rfl⟩
theorem sameUp_refl (s : State) : SameUp s s := ⟨rfl, rfl, rfl, rfl, rfl, rfl⟩
theorem sameCtl_refl (s : State) : SameCtl s s := ⟨rfl, rfl, rfl⟩

/-- TBL_LD leaves both engines and the decoder alone (R107). -/
theorem tblLoad_frame (maxLen : Nat) (sym : Byte) (code : BitString) (s : State) :
    SamePk s (tblLoad maxLen sym code s) ∧ SameUp s (tblLoad maxLen sym code s) ∧
      SameCtl s (tblLoad maxLen sym code s) := by
  rcases tblLoad_cases maxLen sym code s with ⟨-, h⟩ | ⟨-, -, h⟩ | ⟨-, -, -, h⟩ | ⟨-, -, -, -, h⟩ | ⟨-, -, -, -, h⟩ <;>
    rw [h] <;> exact ⟨samePk_refl _, sameUp_refl _, sameCtl_refl _⟩

/-- A pack command leaves the table, the unpacker and the decoder alone (R107). -/
theorem exec_pk_frame (i : Instr) (s t : State) (hi : isPk i = true) (h : exec i s = .next t) :
    SameTbl s t ∧ SameUp s t ∧ SameCtl s t := by
  cases i with
  | pkStart => cases h; exact ⟨sameTbl_refl _, sameUp_refl _, sameCtl_refl _⟩
  | pkSym sym =>
    simp only [exec] at h
    obtain ⟨-, he⟩ | ⟨-, -, he⟩ | ⟨-, code, -, he⟩ := execPkSym_cases sym s
    · rw [he] at h; cases h; exact ⟨sameTbl_refl _, sameUp_refl _, sameCtl_refl _⟩
    · rw [he] at h; cases h; exact ⟨sameTbl_refl _, sameUp_refl _, sameCtl_refl _⟩
    · rw [he] at h
      obtain ⟨acc, n, bs, hf⟩ := pkAppend_frame code s
      rw [hf] at h; cases h
      exact ⟨sameTbl_refl _, sameUp_refl _, sameCtl_refl _⟩
  | pkFlush =>
    simp only [exec, execPkFlush, pkFlushPending_eq] at h
    split at h
    · cases h; exact ⟨sameTbl_refl _, sameUp_refl _, sameCtl_refl _⟩
    · split at h <;> cases h <;> exact ⟨sameTbl_refl _, sameUp_refl _, sameCtl_refl _⟩
  | _ => cases hi

/-- An unpack command leaves the table, the packer and the decoder alone (R107). -/
theorem exec_up_frame (i : Instr) (s t : State) (hi : isUp i = true) (h : exec i s = .next t) :
    SameTbl s t ∧ SamePk s t ∧ SameCtl s t := by
  cases i with
  | upStart => cases h; exact ⟨sameTbl_refl _, samePk_refl _, sameCtl_refl _⟩
  | upByte b =>
    simp only [exec, execUpByte, upFeed_eq] at h
    split at h <;> cases h <;> exact ⟨sameTbl_refl _, samePk_refl _, sameCtl_refl _⟩
  | upTail b nv =>
    simp only [exec] at h
    obtain ⟨-, he⟩ | ⟨-, -, he⟩ | ⟨-, -, he⟩ := execUpTail_cases b nv s
    · rw [he] at h; cases h; exact ⟨sameTbl_refl _, samePk_refl _, sameCtl_refl _⟩
    · rw [he, upFeed_eq] at h; cases h; exact ⟨sameTbl_refl _, samePk_refl _, sameCtl_refl _⟩
    · rw [he] at h; cases h; exact ⟨sameTbl_refl _, samePk_refl _, sameCtl_refl _⟩
  | upEnd =>
    simp only [exec, execUpEnd] at h
    split at h
    · cases h; exact ⟨sameTbl_refl _, samePk_refl _, sameCtl_refl _⟩
    · split at h <;> cases h <;> exact ⟨sameTbl_refl _, samePk_refl _, sameCtl_refl _⟩
  | _ => cases hi

/-- A table command leaves both engines and the decoder alone (R107). -/
theorem exec_tbl_frame (i : Instr) (s t : State) (hi : isTbl i = true) (h : exec i s = .next t) :
    SamePk s t ∧ SameUp s t ∧ SameCtl s t := by
  cases i with
  | tblClr => cases h; exact ⟨samePk_refl _, sameUp_refl _, sameCtl_refl _⟩
  | tblLd sym code => cases h; exact tblLoad_frame _ sym code s
  | _ => cases hi

/-- The decoder's CQ and CMD_WORDS are changed by no meaning: the step around it does that (R100). -/
theorem exec_keeps_queue (i : Instr) (s t : State) (h : exec i s = .next t) :
    t.cq = s.cq ∧ t.cmdWords = s.cmdWords := by
  cases hp : isPk i with
  | true => have := (exec_pk_frame i s t hp h).2.2; exact ⟨this.2.2, this.2.1⟩
  | false =>
    cases hu : isUp i with
    | true => have := (exec_up_frame i s t hu h).2.2; exact ⟨this.2.2, this.2.1⟩
    | false =>
      cases ht : isTbl i with
      | true => have := (exec_tbl_frame i s t ht h).2.2; exact ⟨this.2.2, this.2.1⟩
      | false =>
        cases i with
        | nop => cases h; exact ⟨rfl, rfl⟩
        | reservedAB op => cases h; exact ⟨rfl, rfl⟩
        | reservedCF op => cases h; exact ⟨rfl, rfl⟩
        | tblClr => cases ht
        | tblLd sym code => cases ht
        | pkStart => cases hp
        | pkSym sym => cases hp
        | pkFlush => cases hp
        | upStart => cases hu
        | upByte b => cases hu
        | upTail b nv => cases hu
        | upEnd => cases hu

end Sys2Proof.Machine
end

