-- ==== Sys2Proof/Laws/PerInstr.lean ====
section
/-! SUPPORT. Statements about every command, one lemma per constructor. -/

/-- R85: a command is as many words long as `Instr.words` says, and that is 1 to 9. -/
def Sys2Proof.Laws.EncodedLength.Statement (i : Sys2Proof.Instr) : Prop :=
  i.WellFormed → (Sys2Proof.encode i).length = i.words ∧ 1 ≤ i.words ∧ i.words ≤ 9

namespace Sys2Proof.Laws.EncodedLength

open Sys2Proof

theorem nop : Statement .nop := fun _ => ⟨rfl, by decide, by decide⟩

theorem tblClr : Statement .tblClr := fun _ => ⟨rfl, by decide, by decide⟩

theorem tblLd (sym : Byte) (code : BitString) : Statement (.tblLd sym code) := by
  intro h
  have hl : code.length < 256 := by simpa [Instr.WellFormed, Instr.wf] using h
  refine ⟨by simp [encode, Instr.words]; omega, ?_, ?_⟩ <;> simp only [Instr.words, payloadCount] <;> omega

theorem pkStart : Statement .pkStart := fun _ => ⟨rfl, by decide, by decide⟩

theorem pkSym (sym : Byte) : Statement (.pkSym sym) := fun _ => ⟨rfl, le_refl 1, by simp [Instr.words]⟩

theorem pkFlush : Statement .pkFlush := fun _ => ⟨rfl, by decide, by decide⟩

theorem upStart : Statement .upStart := fun _ => ⟨rfl, by decide, by decide⟩

theorem upByte (byte : Byte) : Statement (.upByte byte) := fun _ => ⟨rfl, le_refl 1, by simp [Instr.words]⟩

theorem upTail (byte : Byte) (nv : BitVec 4) : Statement (.upTail byte nv) :=
  fun _ => ⟨rfl, le_refl 1, by simp [Instr.words]⟩

theorem upEnd : Statement .upEnd := fun _ => ⟨rfl, by decide, by decide⟩

theorem reservedAB (op : BitVec 4) : Statement (.reservedAB op) := fun _ => ⟨rfl, le_refl 1, by simp [Instr.words]⟩

theorem reservedCF (op : BitVec 4) : Statement (.reservedCF op) := fun _ => ⟨rfl, le_refl 1, by simp [Instr.words]⟩

end Sys2Proof.Laws.EncodedLength
end

