-- ==== Sys2Proof/Laws/Step.lean ====
section
/-! SUPPORT. What a step can do, said once (R100, R104). -/

namespace Sys2Proof.Machine

/-- The step with HALT = 1 (R104). -/
theorem step_halted (s : State) (w : Word) (ws : List Word) (hh : s.halt = true) (hq : s.cq = w :: ws) :
    step s = .next { s with cq := ws } := by
  simp [step, fetch, hh, hq, discardHead]

/-- The step on a command (R100). -/
theorem step_command (s : State) (i : Instr) (rest : List Word) (hh : s.halt = false)
    (hd : decode s.cq = .ok (i, rest)) : step s = exec i (consume i.words s) := by
  have hne : s.cq ≠ [] := by intro h; rw [h] at hd; cases hd
  have hf : fetch s = .command i := by
    simp [fetch, hh, hd, hne]
  simp [step, hf]

/-- The step with an empty queue (R100). -/
theorem step_idle (s : State) (hq : s.cq = []) : step s = .fault .idle := by
  simp [step, fetch, hq]

/-- The step on a TBL_LD whose payload words are not all in CQ (R100). -/
theorem step_await (s : State) (hh : s.halt = false) (hd : decode s.cq = .error .payloadMissing) :
    step s = .fault .awaitPayload := by
  have hne : s.cq ≠ [] := by intro h; rw [h] at hd; cases hd
  simp [step, fetch, hh, hd, hne]

/-- Everything a step can do: nothing with an empty queue, a discard with HALT = 1, a command, or nothing while payload
words are missing. -/
theorem step_cases (s : State) :
    (s.cq = [] ∧ step s = .fault .idle) ∨
    (s.halt = true ∧ ∃ w ws, s.cq = w :: ws ∧ step s = .next { s with cq := ws }) ∨
    (s.halt = false ∧ ∃ i rest, decode s.cq = .ok (i, rest) ∧ step s = exec i (consume i.words s)) ∨
    (s.halt = false ∧ decode s.cq = .error .payloadMissing ∧ step s = .fault .awaitPayload) := by
  rcases hq : s.cq with _ | ⟨w, ws⟩
  · exact .inl ⟨rfl, step_idle s hq⟩
  · by_cases hh : s.halt = true
    · exact .inr (.inl ⟨hh, w, ws, rfl, step_halted s w ws hh hq⟩)
    · have hh' : s.halt = false := by simpa using hh
      rw [← hq]
      obtain ⟨h, -⟩ | ⟨w', r, -, -, hd⟩ | ⟨w', r, -, -, -, hd⟩ | ⟨w', r, -, -, -, hd⟩ := decode_cases s.cq
      · rw [hq] at h; cases h
      · exact .inr (.inr (.inl ⟨hh', _, _, hd, step_command s _ _ hh' hd⟩))
      · exact .inr (.inr (.inl ⟨hh', _, _, hd, step_command s _ _ hh' hd⟩))
      · exact .inr (.inr (.inr ⟨hh', hd, step_await s hh' hd⟩))

end Sys2Proof.Machine
end

