-- ==== Sys2Proof/Machine/AsmText.lean ====
section
/-! DEFINITION. The assembler's text (R94, R95): characters to tokens, tokens to lines. The assembler is a tool of the
host and the block sees only the words. -/

namespace Sys2Proof.Machine

/-- One token of a line. A character literal is its byte value (R94), an ordinary number token. That it may so stand for
any number, `nv`, a pad count and a `.word` operand too, is a DESIGN CHOICE (log entry 14). -/
inductive Tok where
  | name (cs : List Char)
  | num (n : Nat)
  | str (cs : List Char)
  | comma
  | colon
  | semicolon
  | openBrace
  | closeBrace
  deriving DecidableEq, Repr

/-! ## Numbers -/

/-- The value of one digit, letters of either case. -/
def digitValue (c : Char) : Option Nat :=
  if '0' ≤ c ∧ c ≤ '9' then some (c.toNat - '0'.toNat)
  else if 'a' ≤ c ∧ c ≤ 'f' then some (c.toNat - 'a'.toNat + 10)
  else if 'A' ≤ c ∧ c ≤ 'F' then some (c.toNat - 'A'.toNat + 10)
  else none

/-- The number whose digits are `cs`, most significant first, after the value `acc` of the digits before them. -/
def digitsFrom (base acc : Nat) : List Char → Option Nat
  | [] => some acc
  | c :: cs =>
    match digitValue c with
    | some d => if d < base then digitsFrom base (base * acc + d) cs else none
    | none => none

/-- Decimal, `0x` hexadecimal or `0b` binary (R94). -/
def numberOf : List Char → Option Nat
  | [] => none
  | '0' :: 'x' :: c :: cs => digitsFrom 16 0 (c :: cs)
  | '0' :: 'b' :: c :: cs => digitsFrom 2 0 (c :: cs)
  | c :: cs => digitsFrom 10 0 (c :: cs)

/-! ## Tokens -/

/-- A space or a tab. -/
def isBlank (c : Char) : Bool := c == ' ' || c == '\t'

/-- A character of a name or a number. -/
def isWordChar (c : Char) : Bool := c.isAlphanum || c == '_' || c == '.'

/-- A token in front of the tokens of the rest. -/
def consTok (t : Tok) (rest : Option (List Tok)) : Option (List Tok) := rest.map fun ts => t :: ts

/-- The tokens of a line, at most `fuel`. `sep` says whether the next `;` separates (log entry 10) or begins the comment,
which runs to the end of the line (R94). The byte value of a character is its code point, up to 255, and a higher one is
refused: a DESIGN CHOICE, as the spec names no character encoding (log entry 14). -/
def tokens : Nat → Bool → List Char → Option (List Tok)
  | _, _, [] => some []
  | 0, _, _ :: _ => none
  | fuel + 1, sep, c :: cs =>
    if isBlank c then tokens fuel sep cs
    else if c == ';' then
      if sep then consTok .semicolon (tokens fuel false cs) else some []
    else if c == ',' then consTok .comma (tokens fuel sep cs)
    else if c == ':' then consTok .colon (tokens fuel sep cs)
    else if c == Char.ofNat 0x7B then consTok .openBrace (tokens fuel sep cs)
    else if c == Char.ofNat 0x7D then consTok .closeBrace (tokens fuel sep cs)
    else if c == '"' then
      match cs.dropWhile (· != '"') with
      | [] => none
      | _ :: rest => consTok (.str (cs.takeWhile (· != '"'))) (tokens fuel sep rest)
    else if c == '\'' then
      match cs with
      | x :: '\'' :: rest => if x.toNat < 256 then consTok (.num x.toNat) (tokens fuel sep rest) else none
      | _ => none
    else if c.isDigit then
      match numberOf (c :: cs.takeWhile isWordChar) with
      | some n => consTok (.num n) (tokens fuel sep (cs.dropWhile isWordChar))
      | none => none
    else if isWordChar c then
      consTok (.name (c :: cs.takeWhile isWordChar)) (tokens fuel sep (cs.dropWhile isWordChar))
    else none

/-! ## Operands -/

/-- A number that fits an unsigned field of `n` bits (R10). -/
def fitsIn (n v : Nat) : Option (BitVec n) := if v < 2 ^ n then some (BitVec.ofNat n v) else none

/-- The bit-string of the quoted characters of a code (R94). -/
def bitsOfChars : List Char → Option BitString
  | [] => some []
  | '0' :: cs => (bitsOfChars cs).map (false :: ·)
  | '1' :: cs => (bitsOfChars cs).map (true :: ·)
  | _ => none

/-- A code that `LEN` can hold (R84). -/
def codeOfChars (cs : List Char) : Option BitString :=
  match bitsOfChars cs with
  | some code => if code.length < 256 then some code else none
  | none => none

/-- The bytes of a quoted text, each character's code point. A code point above 255 is refused (DESIGN CHOICE, log
entry 14). -/
def bytesOfChars : List Char → Option (List Byte)
  | [] => some []
  | c :: cs =>
    match fitsIn 8 c.toNat, bytesOfChars cs with
    | some b, some bs => some (b :: bs)
    | _, _ => none

/-- `b0, b1, ...`, one byte or more. -/
def byteList : List Tok → Option (List Byte)
  | [.num n] => (fitsIn 8 n).map fun b => [b]
  | .num n :: .comma :: rest =>
    match fitsIn 8 n, byteList rest with
    | some b, some bs => some (b :: bs)
    | _, _ => none
  | _ => none

/-- `b0, b1, ...`, or no byte. -/
def byteListOrNone : List Tok → Option (List Byte)
  | [] => some []
  | t :: ts => byteList (t :: ts)

/-- `s1:"c1", s2:"c2", ...` and the closing brace. -/
def entryList : List Tok → Option (List (Byte × BitString))
  | [.num s, .colon, .str c, .closeBrace] =>
    match fitsIn 8 s, codeOfChars c with
    | some sym, some code => some [(sym, code)]
    | _, _ => none
  | .num s :: .colon :: .str c :: .comma :: rest =>
    match fitsIn 8 s, codeOfChars c, entryList rest with
    | some sym, some code, some es => some ((sym, code) :: es)
    | _, _, _ => none
  | _ => none

/-! ## Lines -/

/-- A line without operands. -/
def plainLine (i : Instr) : List Tok → Option AsmLine
  | [] => some (.cmd i)
  | _ => none

/-- A line with one 8-bit operand. -/
def byteLine (f : Byte → Instr) : List Tok → Option AsmLine
  | [.num n] => (fitsIn 8 n).map fun b => .cmd (f b)
  | _ => none

/-- `TBL_LD sym, "bits"`. -/
def tblLdLine : List Tok → Option AsmLine
  | [.num s, .comma, .str c] =>
    match fitsIn 8 s, codeOfChars c with
    | some sym, some code => some (.cmd (.tblLd sym code))
    | _, _ => none
  | _ => none

/-- `UP_TAIL byte, nv`. -/
def upTailLine : List Tok → Option AsmLine
  | [.num b, .comma, .num v] =>
    match fitsIn 8 b, fitsIn 4 v with
    | some byte, some nv => some (.cmd (.upTail byte nv))
    | _, _ => none
  | _ => none

/-- `.word w`. -/
def wordLine : List Tok → Option AsmLine
  | [.num n] => (fitsIn 32 n).map .word
  | _ => none

/-- `TBL_LOAD` and its entries in braces. -/
def tblLoadLine : List Tok → Option AsmLine
  | [.openBrace, .closeBrace] => some (.tblLoad [])
  | .openBrace :: rest => (entryList rest).map .tblLoad
  | _ => none

/-- The operands of PK_BYTES and of PK_STREAM: `b0, b1, ...` or `"text"`. R95 names the quoted text for PK_BYTES. That
PK_STREAM takes it too is DEDUCED from programs P1 and P2 of `95_test_vectors.md` (log entry 13). -/
def packOperands : List Tok → Option (List Byte)
  | [.str cs] => bytesOfChars cs
  | ts => byteListOrNone ts

/-- `UP_STREAM pad; b0, ..., bn−1`, with the pad count of a packed stream, 0 to 7. -/
def upStreamLine : List Tok → Option AsmLine
  | .num pad :: .semicolon :: rest => if pad ≤ 7 then (byteListOrNone rest).map (.upStream pad) else none
  | _ => none

/-- The line of a mnemonic and its operands (R94, R95). -/
def lineOf (mnemonic : List Char) (ops : List Tok) : Option AsmLine :=
  if mnemonic = "NOP".toList then plainLine .nop ops
  else if mnemonic = "TBL_CLR".toList then plainLine .tblClr ops
  else if mnemonic = "TBL_LD".toList then tblLdLine ops
  else if mnemonic = "PK_START".toList then plainLine .pkStart ops
  else if mnemonic = "PK_SYM".toList then byteLine .pkSym ops
  else if mnemonic = "PK_FLUSH".toList then plainLine .pkFlush ops
  else if mnemonic = "UP_START".toList then plainLine .upStart ops
  else if mnemonic = "UP_BYTE".toList then byteLine .upByte ops
  else if mnemonic = "UP_TAIL".toList then upTailLine ops
  else if mnemonic = "UP_END".toList then plainLine .upEnd ops
  else if mnemonic = ".word".toList then wordLine ops
  else if mnemonic = "TBL_LOAD".toList then tblLoadLine ops
  else if mnemonic = "PK_BYTES".toList then (packOperands ops).map .pkBytes
  else if mnemonic = "PK_STREAM".toList then (packOperands ops).map .pkStream
  else if mnemonic = "UP_STREAM".toList then upStreamLine ops
  else none

/-- One line of source: no line at all when it holds only blanks and a comment, none when it is malformed. -/
def parseLine (cs : List Char) : Option (List AsmLine) :=
  let upStream := "UP_STREAM".toList.isPrefixOf (cs.dropWhile isBlank)
  match tokens cs.length upStream cs with
  | some [] => some []
  | some (.name mnemonic :: ops) => (lineOf mnemonic ops).map fun l => [l]
  | _ => none

/-- The lines of a source text, cut at each newline. `line` holds the characters of the line so far. -/
def splitLines (line : List Char) : List Char → List (List Char)
  | [] => [line]
  | '\n' :: cs => line :: splitLines [] cs
  | c :: cs => splitLines (line ++ [c]) cs

/-- The lines of a source text in order, none when one is malformed (R94: one command per line). -/
def parseLines : List (List Char) → Option (List AsmLine)
  | [] => some []
  | l :: ls =>
    match parseLine l, parseLines ls with
    | some a, some b => some (a ++ b)
    | _, _ => none

/-- The words of a source text (R94, R95). -/
def assembleText (source : String) : Option (List Word) := (parseLines (splitLines [] source.toList)).map assemble

end Sys2Proof.Machine
end

