-- ==== Sys2Proof/Tests/Slice0.lean ====
section
/-! SUPPORT. Own tests. Expected results are those of `95_test_vectors.md` (its ids are named) and of the examples in the
rules; the witnesses at the end show that the hypotheses of the statements can be met. -/

namespace Sys2Proof.Tests

open Sys2Proof Sys2Proof.Machine Sys2Proof.Safety

-- One theorem after another: each kernel evaluation that runs beside the others takes a thread and its stack.
set_option Elab.async false

/-! ## WellFormed: each check refuses an ill-formed term -/

theorem test_wf_code_of_256_bits : ¬ (Instr.tblLd 0x41 (List.replicate 256 true)).WellFormed := by decide +kernel
theorem test_wf_code_of_255_bits : (Instr.tblLd 0x41 (List.replicate 255 true)).WellFormed := by decide +kernel
theorem test_wf_reservedAB_is_not_C : ¬ (Instr.reservedAB 0xC).WellFormed := by decide
theorem test_wf_reservedAB_is_not_9 : ¬ (Instr.reservedAB 0x9).WellFormed := by decide
theorem test_wf_reservedCF_is_not_B : ¬ (Instr.reservedCF 0xB).WellFormed := by decide
theorem test_wf_illegal_nv_is_well_formed : (Instr.upTail 0xDC 9).WellFormed := by decide

/-! ## Decoding: words written out from R81 to R88, R94 and L2.1 -/

theorem test_decode_nop : decode [0x00000000] = .ok (.nop, []) := by decide
theorem test_decode_nop_reserved_bits : decode [0x0FFFFFFF] = .ok (.nop, []) := by decide -- E15
theorem test_decode_tblClr : decode [0x10000000, 0x20410001] = .ok (.tblClr, [0x20410001]) := by decide
theorem test_decode_tblLd_three_bits : -- E4
    decode [0x20420003, 0xC0000000] = .ok (.tblLd 0x42 [true, true, false], []) := by decide
theorem test_decode_tblLd_payload_and_header_noise : -- R86, R90: 0x2FFF..: reserved bits; payload bits past LEN
    decode [0x2F42FF03, 0xDFFFFFFF, 0xA0000000] = .ok (.tblLd 0x42 [true, true, false], [0xA0000000]) := by decide
theorem test_decode_tblLd_34_bits : -- E6
    decode [0x20070022, 0xAAAAAAAA, 0xC0000000] =
      .ok (.tblLd 0x07 ((List.replicate 16 [true, false]).flatten ++ [true, true]), []) := by decide +kernel
theorem test_decode_tblLd_33_bits : -- E8
    decode [0x20030021, 0xFFFFFFFF, 0x80000000] = .ok (.tblLd 3 (List.replicate 33 true), []) := by decide +kernel
theorem test_decode_tblLd_255_bits : -- E9
    decode ([0x200100FF] ++ List.replicate 7 0xFFFFFFFF ++ [0xFFFFFFFC]) =
      .ok (.tblLd 1 (List.replicate 254 true ++ [false]), []) := by decide +kernel
theorem test_decode_tblLd_no_bits : decode [0x20420000] = .ok (.tblLd 0x42 [], []) := by decide -- E10
theorem test_decode_tblLd_waits : decode [0x20410001] = .error .payloadMissing := by decide -- K6
theorem test_decode_nothing : decode [] = .error .noWord := by decide
theorem test_decode_pkStart : decode [0x30000000] = .ok (.pkStart, []) := by decide
theorem test_decode_pkSym : decode [0x4FFFFF41] = .ok (.pkSym 0x41, []) := by decide -- E16
theorem test_decode_pkFlush : decode [0x50000000] = .ok (.pkFlush, []) := by decide
theorem test_decode_upStart : decode [0x60000000] = .ok (.upStart, []) := by decide
theorem test_decode_upByte : decode [0x7000006E] = .ok (.upByte 0x6E, []) := by decide -- E12
theorem test_decode_upTail : decode [0x800007DC] = .ok (.upTail 0xDC 7, []) := by decide -- E13
theorem test_decode_upEnd : decode [0x90000000] = .ok (.upEnd, []) := by decide -- E14
theorem test_decode_reserved : -- E17
    ([0xA0000000, 0xBFFFFFFF, 0xC0000000, 0xD1234567, 0xE0000000, 0xF0000000] : List Word).map (fun w => decode [w]) =
      [.ok (.reservedAB 0xA, []), .ok (.reservedAB 0xB, []), .ok (.reservedCF 0xC, []), .ok (.reservedCF 0xD, []),
       .ok (.reservedCF 0xE, []), .ok (.reservedCF 0xF, [])] := by decide

/-- R93: no two rows of the opcode map fit one word. -/
theorem test_rows_do_not_overlap :
    opRows.Pairwise fun a b => a.value &&& b.mask ≠ b.value &&& a.mask := by decide

theorem test_decodeTableWord : decodeTableWord 32 0x7000006E = some (.upByte 0x6E) := by decide
theorem test_decodeTableWord_load : -- the payload words are 0
    decodeTableWord 32 0x20420003 = some (.tblLd 0x42 [false, false, false]) := by decide
/-! ## The assembler (R94 to R96) -/

theorem test_asm_commands :
    assembleText "NOP ; a comment\n TBL_LD 'B', \"110\"\nPK_SYM 'A'\nUP_TAIL 0b11011100, 7\n.word 0xA0000000" =
      some [0x00000000, 0x20420003, 0xC0000000, 0x40000041, 0x800007DC, 0xA0000000] := by decide +kernel
theorem test_asm_pseudo : -- the words of L1.5, L1.6 and U1
    assembleText "PK_STREAM 'A', 66\nPK_BYTES \"AB\"\nUP_STREAM 1; 0x6E, 0x8A, 0xDC\nUP_STREAM 0;" =
      some [0x30000000, 0x40000041, 0x40000042, 0x50000000, 0x40000041, 0x40000042, 0x60000000, 0x7000006E, 0x7000008A,
        0x800007DC, 0x90000000, 0x60000000, 0x90000000] := by decide +kernel
theorem test_asm_quoted_stream : -- P2 of L3, its 16 words
    assembleText ("TBL_LOAD " ++ String.ofList [Char.ofNat 0x7B] ++ "'A':\"1\", 'B':\"0\"" ++
        String.ofList [Char.ofNat 0x7D] ++ "      ; the algorithm's table\nPK_STREAM \"AAB\"   ; -> PKO C0, PAD 5\n" ++
        "UP_START\nUP_BYTE 0xC0\nUP_END\nUP_START\nUP_TAIL 0xC0, 3\nUP_END\n") =
      some [0x10000000, 0x20410001, 0x80000000, 0x20420001, 0x00000000, 0x30000000, 0x40000041, 0x40000041, 0x40000042,
        0x50000000, 0x60000000, 0x700000C0, 0x90000000, 0x60000000, 0x800003C0, 0x90000000] := by decide +kernel
theorem test_asm_tblLoad_sorts : (AsmLine.tblLoad [(0x42, [true]), (0x41, [false])]).words =
    [0x10000000, 0x20410001, 0x00000000, 0x20420001, 0x80000000] := by decide +kernel
theorem test_asm_tblLoad_is_stable : -- log entry 15: entries of one symbol keep the order of the source
    sortEntries [(0x42, [true]), (0x41, [true]), (0x42, [false])] = [(0x41, [true]), (0x42, [true]), (0x42, [false])] := by
  decide +kernel
theorem test_asm_refuses_a_wide_symbol : assembleText "PK_SYM 256" = none := by decide +kernel

/-! ## One command on a small state -/

/-- Whether an outcome is a next state. -/
def isNext (o : Host.Outcome State Fault Refusal) : Bool :=
  match o with
  | .next _ => true
  | .fault _ => false
  | .refused _ => false

/-- The next state of an outcome, the reset state where there is none. -/
def nextOf (o : Host.Outcome State Fault Refusal) : State :=
  match o with
  | .next t => t
  | .fault _ => State.reset
  | .refused _ => State.reset

theorem eq_nextOf (o : Host.Outcome State Fault Refusal) (h : isNext o = true) : o = .next (nextOf o) := by
  cases o with
  | next t => rfl
  | fault f => cases h
  | refused r => cases h

/-- The state after some commands. -/
def after (is : List Instr) (s : State) : State := nextOf (runCmds is s)

/-- The registers of R35 with IDX 0 to 8. -/
def regs (s : State) : List Word := (List.range 9).map fun k => readReg (BitVec.ofNat 4 k) s

/-- The state after a step of the block. -/
def stepped (s : State) : State := nextOf (step s)

/-- An event of the block that has a next state. -/
theorem eq_some_sysStepped (s : State) (h : isNext (step s) = true) : sysStep .block s = some (stepped s) := by
  rw [sysStep, stepped, eq_nextOf _ h, nextOf]

/-- A state with a table of the vectors, the rest as after reset. -/
def loaded (entries : List (Byte × BitString)) : State := after (asmTblLoad entries) State.reset

/-- The table of T2: A "0", B "110", C "100", D "101", R "111". -/
def abracadabra : State := loaded [(0x41, [false]), (0x42, [true, true, false]), (0x43, [true, false, false]),
  (0x44, [true, false, true]), (0x52, [true, true, true])]

theorem test_nop : -- K1
    regs (stepped { State.reset with cq := [0x00000000] }) = [0, 0, 0, 0, 0, 0, 0, 0, 1] := by decide +kernel
theorem test_reservedAB : -- K3
    regs (stepped { State.reset with cq := [0xA0000000] }) = [0x01000000, 0, 0, 0, 0, 0, 0, 0, 1] := by decide +kernel
theorem test_reservedCF : -- X5: the error field is kept
    regs (after [.reservedCF 0xC] (after [.pkSym 0x41] State.reset)) =
      [0x01000100, 0, 0x41000000, 0, 0, 0, 0, 0, 0] := by decide +kernel
theorem test_halted_word_is_discarded : -- K4: a TBL_LD header does not wait
    let t := stepped { State.reset with halt := true, cq := [0x20410001, 0x30000000] }
    t.cq = [0x30000000] ∧ t.halt = true ∧ t.cmdWords = 0 := by decide +kernel
theorem test_withFetchWord_runs : -- the host's placed word is the next command
    regs (stepped (State.reset.withFetchWord 32 0x4000005A)) = [0x00000100, 0, 0x5A000000, 0, 0, 0, 0, 0, 1] := by
  decide +kernel

theorem test_tblClr : regs (after [.tblClr] abracadabra) = [0, 0, 0, 0, 0, 0, 0, 0, 0] := by decide +kernel -- T3
theorem test_tblClr_after_poison : -- T6: the load after TBL_CLR succeeds
    regs (after [.tblClr, .tblLd 0x42 [true]] (loaded [(0x41, [])])) = [0, 0x00010001, 0, 0, 0, 0, 0, 0, 0] := by
  decide +kernel
theorem test_tblLd_payload_looks_reserved : -- K5
    regs (stepped { State.reset with cq := [0x20410001, 0xF0000000] }) = [0, 0x00010001, 0, 0, 0, 0, 0, 0, 2] := by
  decide +kernel
theorem test_tblLd_duplicate_poisons : -- T5
    regs (after [.tblLd 0x41 [true]] (loaded [(0x41, [false])])) = [0x00000032, 0x41000000, 0, 0, 0, 0, 0, 0, 0] := by
  decide +kernel

theorem test_pkStart : -- R134's example
    regs (after [.pkStart] (after [.pkSym 0x5A] State.reset)) = [0, 0, 0, 0, 0, 0, 0, 0, 0] := by decide +kernel
theorem test_pkSym_completes_a_byte : -- P3
    let t := after [.pkSym 0x41] { abracadabra with pkAcc := [false, true, true, false, true, true, true] }
    t.pko = [0x6E] ∧ t.pkAcc = [] ∧ t.pkSyms = 1 ∧ t.pkBytes = 1 := by decide +kernel
theorem test_pkSym_pushes_32_bytes : -- P12: 7 + 255 bits
    let t := after [.pkSym 1] { loaded [(1, List.replicate 254 true ++ [false])] with pkAcc := List.replicate 7 true }
    t.pko = List.replicate 32 0xFF ∧ readReg 2 t = 0x0000F806 := by decide +kernel
theorem test_pkFlush : -- P4
    let t := after [.pkFlush] { State.reset with pkAcc := [true, true, false, true, true, true, false] }
    t.pko = [0xDC] ∧ readReg 2 t = 0x00010000 := by decide +kernel
theorem test_pkFlush_again : -- P5: PAD is overwritten
    let t := after [.pkFlush] { State.reset with pkPad := 5 }
    t.pko = [] ∧ readReg 2 t = 0 := by decide +kernel

theorem test_upStart : -- R155's example
    regs (after [.upStart] (after [.upByte 0] State.reset)) = [0, 0, 0, 0, 0, 0, 0, 0, 0] := by decide +kernel
theorem test_upByte : -- U2: A B R A
    (after [.upByte 0x6E] abracadabra).upo = [0x41, 0x42, 0x52, 0x41] := by decide +kernel
theorem test_upByte_overflow_is_strict : -- U5: at the third bit, not the second
    let t := after [.upByte 0x80] (loaded [(0x41, [false, false]), (0x42, [false, true])])
    readReg 0 t = 0x00130000 ∧ readReg 7 t = 3 ∧ readReg 5 t = 0 := by decide +kernel
theorem test_upTail : -- R157's example: the phantom A is not emitted
    (after [.upTail 0xDC 7] abracadabra).upo = [0x42, 0x52, 0x41] := by decide +kernel
theorem test_upTail_bad_nv : -- U9
    regs (after [.upTail 0x00 9] State.reset) = [0x00140000, 0, 0, 0, 0, 0, 0, 0, 0] := by decide +kernel
theorem test_upEnd_leftover : -- U7
    readReg 0 (after [.upEnd] { State.reset with upBuf := [true] }) = 0x00230000 := by decide +kernel
theorem test_upEnd_well_formed : regs (after [.upEnd] State.reset) = [0, 0, 0, 0, 0, 0, 0, 0, 0] := by decide +kernel -- U11

theorem test_lowest_symbol_of_a_shared_code : -- U13
    (after [.upTail 0x40 2] (loaded [(0x41, [false]), (0x42, [false]), (0x43, [true])])).upo = [0x41, 0x43] := by
  decide +kernel
theorem test_status_of_two_engines : -- X2
    regs (after [.pkSym 0x41] (after [.tblLd 0x41 [true]] (loaded [(0x41, [false])]))) =
      [0x00000132, 0x41000000, 0x41000000, 0, 0, 0, 0, 0, 0] := by decide +kernel
theorem test_code_too_long_in_a_smaller_build : -- T11
    regs (tblLoad 16 0x41 (List.replicate 17 false) State.reset) = [0x00000022, 0x41000000, 0, 0, 0, 0, 0, 0, 0] := by
  decide +kernel
theorem test_read_waits_for_payload : -- K6
    readDrained 0 { State.reset with cq := [0x20410001] } = none := by decide +kernel
theorem test_read_drains : -- K2
    (readDrained 8 { State.reset with cq := [0x00000000, 0x0FFFFFFF] }).map Prod.snd = some (.value 2) := by
  decide +kernel
theorem test_run_of_an_incomplete_load_never_ends : runWords [0x00000000, 0x20410001] = none := by decide +kernel -- R109

/-! ## Witnesses: states that meet the hypotheses of the statements -/

theorem witness_wellFormed : (Instr.tblLd 0xFF (List.replicate 255 true)).WellFormed ∧ (Instr.tblLd 0 []).WellFormed ∧
    (Instr.upTail 0xFF 15).WellFormed ∧ (Instr.reservedAB 0xB).WellFormed ∧ (Instr.reservedCF 0xF).WellFormed := by
  decide +kernel

/-- EveryWordDecodesToOneRow and PayloadBitsBecomeTheCode. -/
theorem witness_load_words : opField 0x200100FF = 2#4 ∧
    (List.replicate 8 (0xFFFFFFFF : Word)).length = (lenField 0x200100FF + 31) / 32 ∧
    payloadCount (lenField 0x20030021) ≤ [0xFFFFFFFF, (0x80000000 : Word)].length ∧ opField 0x30000000 ≠ 2#4 ∧
    decode [0x800007DC] = .ok (.upTail 0xDC 7, []) := by decide

/-- BytesAreBitsMostSignificantFirst. -/
theorem witness_byte_bits : (bitsOf 0x81).length = 8 := by decide

/-- StepRunsDecodedCommand, StepConsumesTheCommandsWords, ReservedOpcodeHalts. -/
theorem witness_step : ∃ s t : State, s.halt = false ∧ decode s.cq = .ok (.reservedCF 0xF, []) ∧
    step s = .next t ∧ s.cq = [0xF0000000] ∧ 0xA#4 ≤ opField 0xF0000000 :=
  ⟨{ State.reset with cq := [0xF0000000] }, _, rfl, by decide, eq_nextOf _ (by decide +kernel), rfl, by decide⟩

/-- HaltedBlockDiscardsWords: a halted state with a word, and the event that clears HALT. -/
theorem witness_halted : ∃ s t : State, s.halt = true ∧ s.cq = [0x20410001] ∧
    sysStep (.host .reset) s = some t ∧ t.halt = false :=
  ⟨{ State.reset with halt := true, cq := [0x20410001] }, _, rfl, rfl, rfl, rfl⟩

/-- NoStepExactlyWhenWaiting: each clause. -/
theorem witness_waiting : State.reset.cq = [] ∧
    (opField 0x20410021 = 2#4 ∧ [(0 : Word)].length < (lenField 0x20410021 + 31) / 32) ∧
    (lenField 0x20410000 + 31) / 32 ≤ ([] : List Word).length ∧ opField 0x90000000 ≠ 2#4 := by decide

/-- The hypotheses about engines without an error: TblClr, TblLd, PkSym, PkFlush, UpByte, UpTail, UpEnd. -/
theorem witness_no_error : State.reset.tblErr = 0 ∧ State.reset.pkErr = 0 ∧ State.reset.upErr = 0 ∧
    State.reset.table.read 0x41 = none ∧ State.reset.upBuf = [] ∧ State.reset.pkAcc = [] := by decide +kernel

/-- TblLdWritesOneEntry and TblLdChecksInOrder: the bounds of each check. -/
theorem witness_tblLd_lengths : ([] : BitString).length = 0 ∧ 0 < [true].length ∧
    (255 < (List.replicate 256 true).length ∧ 16 < (List.replicate 17 true).length) ∧
    (List.replicate 255 true).length ≤ 255 ∧ (loaded [(0x41, [false])]).table.read 0x41 ≠ none ∧
    (loaded [(0x41, [false])]).tblErr = 0 ∧ (loaded [(0x41, [false])]).tblSub ≠ 2 := by decide +kernel

/-- TableErrorPoisonsTheTable: an empty code, with the engines free of errors. -/
theorem witness_poison : ∃ s t : State, s.tblErr = 0 ∧ exec (.tblLd 0x41 []) s = .next t ∧ t.tblErr ≠ 0 ∧ s.pkErr = 0 ∧
    s.upErr = 0 := ⟨State.reset, _, rfl, eq_nextOf _ (by decide +kernel), by decide +kernel, rfl, rfl⟩

/-- PoisonedTableIgnoresLoads, ErrorsAreClearedOnlyByTheirStart: a TBL_LD waits in CQ, and a step that clears the error. -/
theorem witness_poisoned : ∃ s u t : State, s.tblErr ≠ 0 ∧ s.halt = false ∧
    decode s.cq = .ok (.tblLd 0x42 [true], []) ∧ u.tblErr ≠ 0 ∧ sysStep .block u = some t ∧ t.tblErr = 0 :=
  ⟨{ State.reset with tblErr := 2, cq := [0x20420001, 0x80000000] }, { State.reset with tblErr := 2, cq := [0x10000000] },
    _, by decide, rfl, by decide, by decide, eq_some_sysStepped _ (by decide +kernel), by decide +kernel⟩

/-- LoadOrderDoesNotMatter. -/
theorem witness_load_order : [((0x41 : Byte), [false]), (0x42, [true])].Perm [(0x42, [true]), (0x41, [false])] ∧
    ([((0x41 : Byte), [false]), (0x42, [true])].map Prod.fst).Nodup ∧
    ∀ e ∈ [((0x41 : Byte), [false]), (0x42, [true])], 1 ≤ e.2.length ∧ e.2.length ≤ 255 := by decide

/-- A table of two codes. -/
def twoCodes : Table := (emptyTable.write 0x41 [false]).write 0x42 [true]

theorem twoCodes_read (sym : Byte) (code : BitString) (h : twoCodes.read sym = some code) :
    (sym = 0x41 ∧ code = [false]) ∨ (sym = 0x42 ∧ code = [true]) := by
  by_cases hb : sym = 0x42
  · subst hb
    rw [twoCodes, read_write_same] at h
    cases h
    exact .inr ⟨rfl, rfl⟩
  · rw [twoCodes, read_write_other _ _ _ _ hb] at h
    by_cases ha : sym = 0x41
    · subst ha
      rw [read_write_same] at h
      cases h
      exact .inl ⟨rfl, rfl⟩
    · rw [read_write_other _ _ _ _ ha, read_emptyTable] at h
      cases h

/-- RoundTripLaw, LookupFindsTheLowestSymbol: a prefix-free table of non-empty codes. -/
theorem witness_prefixFree : PrefixFree twoCodes ∧ (∀ sym code, twoCodes.read sym = some code → code ≠ []) ∧
    twoCodes.read 0x41 = some [false] := by
  refine ⟨?_, ?_, by decide +kernel⟩
  · intro a b ca cb ha hb hne
    obtain ⟨rfl, rfl⟩ | ⟨rfl, rfl⟩ := twoCodes_read a ca ha <;> obtain ⟨rfl, rfl⟩ | ⟨rfl, rfl⟩ := twoCodes_read b cb hb
    · exact absurd rfl hne
    · decide
    · decide
    · exact absurd rfl hne
  · intro sym code h
    obtain ⟨-, rfl⟩ | ⟨-, rfl⟩ := twoCodes_read sym code h <;> decide

/-- PackingLaw, SymbolsAfterAFlushStartANewByte, RoundTripLaw: the job "AAB" of L1.4 with its byte and PAD. -/
theorem witness_pack_job : ∃ s t : State, Covers s.table [0x41, 0x41, 0x42] ∧ s.table = twoCodes ∧
    runCmds (asmPkStream [0x41, 0x41, 0x42]) s = .next t ∧ t.pko = s.pko ++ [0x20] ∧ t.pkPad = 5 := by
  refine ⟨{ State.reset with table := twoCodes }, _, ?_, rfl, eq_nextOf _ (by decide +kernel), by decide +kernel⟩
  intro sym h
  have : sym = 0x41 ∨ sym = 0x42 := by simpa using h
  obtain rfl | rfl := this
  · exact ⟨[false], by decide +kernel⟩
  · exact ⟨[true], by decide +kernel⟩

/-- PkSymAppendsTheCode at 7 waiting bits, PkFlushPadsTheLastByte at 1 and at 7. -/
theorem witness_waiting_bits : twoCodes.read 0x42 = some [true] ∧ (List.replicate 7 true).length ≤ 7 ∧
    [true] ≠ [] ∧ [true].length ≤ 7 := by decide +kernel

/-- FailedPackEngineIgnoresCommands: a failed engine, and the step that clears it. -/
theorem witness_pack_failed : ∃ s t : State, s.pkErr ≠ 0 ∧ sysStep .block s = some t ∧ t.pkErr = 0 :=
  ⟨{ State.reset with pkErr := 1, cq := [0x30000000] }, _, by decide, eq_some_sysStepped _ (by decide +kernel),
    by decide +kernel⟩

/-- FailedUnpackEngineIgnoresCommands: a failed engine, and the step that clears it. -/
theorem witness_unpack_failed : ∃ s t : State, s.upErr ≠ 0 ∧ sysStep .block s = some t ∧ t.upErr = 0 :=
  ⟨{ State.reset with upErr := 3, cq := [0x60000000] }, _, by decide, eq_some_sysStepped _ (by decide +kernel),
    by decide +kernel⟩

/-- OneBitMatchesOverflowsOrWaits: a match, an overflow just past MAXL and a wait just at it. -/
theorem witness_one_bit : (twoCodes.lowestMatch ([] ++ [true]) = some 0x42) ∧
    (emptyTable.lowestMatch ([] ++ [true]) = none ∧ emptyTable.maxl < ([] : BitString).length + 1) ∧
    ((emptyTable.write 0x41 [false]).lowestMatch ([] ++ [true]) = none ∧
      ([] : BitString).length + 1 ≤ (emptyTable.write 0x41 [false]).maxl) := by decide +kernel

/-- UpByteUnpacksEightBits and UpTailUnpacksTheValidBits: with and without an overflow, and NV at both ends. -/
theorem witness_unpack : (unpackBits twoCodes [] (bitsOf 0xA5)).overflow = false ∧
    (unpackBits emptyTable [] (bitsOf 0xA5)).overflow = true ∧
    (1 ≤ (1 : BitVec 4).toNat ∧ (8 : BitVec 4).toNat ≤ 8) ∧ (0 : BitVec 4).toNat = 0 ∧ 8 < (9 : BitVec 4).toNat := by
  decide +kernel

/-- ShadowedSymbolsAreNeverEmitted: a proper prefix (U14) and a shared code (U13). -/
theorem witness_shadowed : ((emptyTable.write 0x41 [false]).write 0x42 [false, true]).read 0x41 = some [false] ∧
    ((emptyTable.write 0x41 [false]).write 0x42 [false, true]).read 0x42 = some [false, true] ∧
    ([false] <+: [false, true] ∧ [false] ≠ [false, true]) ∧
    ((emptyTable.write 0x41 [false]).write 0x42 [false]).read 0x41 = some [false] ∧
    ((emptyTable.write 0x41 [false]).write 0x42 [false]).read 0x42 = some [false] ∧
    (0x41 : Byte).toNat < (0x42 : Byte).toNat := by decide +kernel

/-- RaisingAnErrorRecordsIt: an error of each engine. -/
theorem witness_engines : (Err.emptyCode 0).engine = .tbl ∧ (Err.unknownSymbol 0).engine = .pk ∧
    Err.overflow.engine = .up := by decide

/-- StatusAfterEachError: a build with a smaller MAX_CODE_LEN. -/
theorem witness_code_too_long : 16 < (List.replicate 17 true).length := by decide

/-- OnlyTheNamedCommandsRaiseErrors: each error is raised by some command. -/
theorem witness_raises : ∃ t1 t2 t3 t4 t5 t6 : State,
    (exec (.tblLd 0 []) State.reset = .next t1 ∧ t1.tblErr ≠ 0) ∧ (exec (.pkSym 0) State.reset = .next t2 ∧ t2.pkErr ≠ 0) ∧
    (exec (.upByte 0) State.reset = .next t3 ∧ t3.upErr ≠ 0) ∧
    (exec .upEnd { State.reset with upBuf := [true] } = .next t4 ∧ t4.upErr ≠ 0) ∧
    (exec (.upTail 0 0) State.reset = .next t5 ∧ t5.upErr ≠ 0) ∧
    (exec (.reservedAB 0xA) State.reset = .next t6 ∧ t6.halt = true) :=
  ⟨_, _, _, _, _, _, ⟨eq_nextOf _ (by decide +kernel), by decide +kernel⟩, ⟨eq_nextOf _ (by decide +kernel), by decide +kernel⟩,
    ⟨eq_nextOf _ (by decide +kernel), by decide +kernel⟩, ⟨eq_nextOf _ (by decide +kernel), by decide +kernel⟩,
    ⟨eq_nextOf _ (by decide +kernel), by decide +kernel⟩, ⟨eq_nextOf _ (by decide +kernel), by decide +kernel⟩⟩

/-- ErrorsAreClearedOnlyByTheirStart: an event that is no reset, with every engine failed and HALT set. -/
theorem witness_event : ∃ s t : State, sysStep (.host (.write 0)) s = some t ∧ s.tblErr ≠ 0 ∧ s.pkErr ≠ 0 ∧ s.upErr ≠ 0 ∧
    s.halt = true :=
  ⟨{ State.reset with tblErr := 2, pkErr := 1, upErr := 3, halt := true }, _, rfl, by decide +kernel⟩

/-- FirstErrorIsKept: a command on a state in which all three engines have failed. -/
theorem witness_first_error : ∃ s t : State, exec (.upTail 0 0) s = .next t ∧ s.tblErr ≠ 0 ∧ s.pkErr ≠ 0 ∧
    s.upErr ≠ 0 ∧ Instr.upTail 0 0 ≠ .pkStart ∧ Instr.upTail 0 0 ≠ .upStart ∧ Instr.upTail 0 0 ≠ .tblClr :=
  ⟨{ State.reset with tblErr := 2, pkErr := 1, upErr := 3 }, _, eq_nextOf _ (by decide +kernel), by decide +kernel⟩

/-- EnginesAreIndependent, PackAndUnpackCommandsCommute: two states that differ in the other engine and the decoder. -/
theorem witness_two_states : ∃ s s' t t' : State, isPk .pkFlush = true ∧ exec .pkFlush s = .next t ∧
    exec .pkFlush s' = .next t' ∧ s'.table = s.table ∧ SamePk s s' ∧ SameTbl s s' ∧ s ≠ s' ∧ isUp .upEnd = true ∧
    isTbl .tblClr = true ∧ SameUp s s' :=
  ⟨State.reset, { State.reset with cmdWords := 1 }, _, _, rfl, eq_nextOf _ (by decide +kernel),
    eq_nextOf _ (by decide +kernel), rfl, ⟨rfl, rfl, rfl, rfl, rfl, rfl, rfl, rfl⟩,
    ⟨rfl, rfl, rfl, rfl⟩, fun h => absurd (congrArg State.cmdWords h) (by decide), rfl, rfl,
    ⟨rfl, rfl, rfl, rfl, rfl, rfl⟩⟩

/-- A state at the bounds of the invariant, with a PK_SYM at the head of CQ. -/
def full : State := { State.reset with
  table := twoCodes, pkAcc := List.replicate 7 true, pkPad := 7, upBuf := List.replicate 255 true, cq := [0x40000041] }

/-- OutputQueuesOnlyGrow, RoomConditionKeepsQueuesBounded, StepKeepsTheInvariant, StatusFields, PkBufFields,
CounterAndReservedRegisters. -/
theorem witness_full : Inv full ∧ (∃ t, step full = .next t) ∧ canStart 32 full = true ∧ full.pko = [] ∧ full.upo = [] := by
  refine ⟨⟨?_, .inl ⟨rfl, rfl, rfl⟩, by decide +kernel, by decide +kernel, ⟨rfl, .inl ⟨rfl, rfl⟩⟩, by decide +kernel,
    .inl ⟨rfl, rfl⟩⟩, ⟨_, eq_nextOf _ (by decide +kernel)⟩, by decide +kernel, rfl, rfl⟩
  intro sym code h
  obtain ⟨-, rfl⟩ | ⟨-, rfl⟩ := twoCodes_read sym code h <;> decide

/-- TblInfoFields. -/
theorem witness_tableOk : TableOk full.table := witness_full.1.tableOk

/-- QueueRunsAsTheCommandSequence, RunEndsExactlyWithWholeCommands. -/
theorem witness_queue : ∃ s t : State, s.halt = false ∧
    (∀ i ∈ [Instr.tblLd 0x41 [true], .upByte 0xC0], i.WellFormed ∧ isReserved i = false) ∧
    s.cq = [Instr.tblLd 0x41 [true], .upByte 0xC0].flatMap encode ++ [0x90000000] ∧
    runCmds [.tblLd 0x41 [true], .upByte 0xC0] s = .next t :=
  ⟨{ State.reset with cq := [0x20410001, 0x80000000, 0x700000C0, 0x90000000] }, _, rfl, by decide,
    by decide +kernel, eq_nextOf _ (by decide +kernel)⟩

/-- HostActions, RegisterReadDrainsTheQueue: queues with and without a byte, and a read that waits for ever. -/
theorem witness_host : State.reset.pko = [] ∧ { State.reset with pko := [1] }.pko = 1 :: [] ∧
    (drained { State.reset with cq := [0x30000000] }).cq = [] ∧
    (drained { State.reset with cq := [0x20410001] }).cq ≠ [] := by decide +kernel

/-- ClearCommandsGiveTheResetState. -/
theorem witness_clear : full.halt = false ∧ full.pkPad ≠ State.reset.pkPad := by decide

/-- ReachableStatesMeetTheInvariant: a state other than reset. -/
theorem witness_reachable : Reachable { State.reset with cq := [0x40000041] } :=
  .event (.host (.write 0x40000041)) State.reset _ .reset rfl

end Sys2Proof.Tests
end

section
/-! PROOF of R12: the value of a byte as the weighted sum of its bits, and O7. -/

namespace Sys2Proof.Machine

/-- In a big-endian list of `n` bits the bit at position `i` weighs `2 ^ (n − 1 − i)`. -/
theorem toNat_ofBoolListBE (x : List Bool) : (BitVec.ofBoolListBE x).toNat =
    ((List.range x.length).map fun i => (x.getD i false).toNat * 2 ^ (x.length - (i + 1))).sum := by
  induction x with
  | nil => rfl
  | cons b x ih =>
    have hcons : (BitVec.ofBoolListBE (b :: x)).toNat = b.toNat * 2 ^ x.length + (BitVec.ofBoolListBE x).toNat := by
      rw [BitVec.ofBoolListBE, BitVec.toNat_cons', Nat.shiftLeft_eq]
    rw [hcons, ih, List.length_cons, List.range_succ_eq_map]
    simp [Function.comp_def]

/-- `byte(x)` cuts nothing off a bit-string of 8 bits. -/
theorem byteOf_toNat (x : BitString) (hx : x.length = 8) : (byteOf x).toNat = (BitVec.ofBoolListBE x).toNat := by
  have hlt : (BitVec.ofBoolListBE x).toNat < 2 ^ 8 := hx ▸ (BitVec.ofBoolListBE x).isLt
  rw [byteOf, BitVec.toNat_setWidth, Nat.mod_eq_of_lt hlt]

/-- `byte(x)` is `Σ x⟨i⟩ · 2^(7−i)` (R12). -/
theorem byteOf_toNat_eq_sum (x : BitString) (hx : x.length = 8) :
    (byteOf x).toNat = ((List.range 8).map fun i => (x.getD i false).toNat * 2 ^ (7 - i)).sum := by
  rw [byteOf_toNat x hx, toNat_ofBoolListBE, hx]
  simp only [Nat.reduceSubDiff]

/-- Settles O7: the weights come from `byteOf_toNat_eq_sum`, the two inverses from the laws of `byteOf` and `bitsOf`,
and the order of `bits(b)` is its definition. -/
theorem bytesAreBitsMostSignificantFirst : Obligations.BytesAreBitsMostSignificantFirst :=
  ⟨fun x hx => ⟨byteOf_toNat_eq_sum x hx, bitsOf_byteOf x hx⟩, fun b => ⟨byteOf_bitsOf b, rfl⟩⟩

end Sys2Proof.Machine
end

section
/-! PROOF that reset meets the invariant and every step keeps it, one engine at a time (R23 to R33, R131, R151): O58, O59. -/

namespace Sys2Proof.Safety

open Sys2Proof.Machine

/-! ## The invariant, engine by engine -/

/-- The table loader's part of the invariant. -/
def TblInv (s : State) : Prop := TableOk s.table ∧ TblErrLegal s

/-- The pack engine's part of the invariant. -/
def PkInv (s : State) : Prop := s.pkAcc.length ≤ 7 ∧ s.pkPad ≤ 7 ∧ PkErrLegal s

/-- The unpack engine's part of the invariant. -/
def UpInv (s : State) : Prop := s.upBuf.length ≤ Config.maxCodeLen ∧ UpErrLegal s

theorem inv_iff (s : State) : Inv s ↔ TblInv s ∧ PkInv s ∧ UpInv s := by
  constructor
  · rintro ⟨hT, hTe, hacc, hpad, hpe, hbuf, hue⟩
    exact ⟨⟨hT, hTe⟩, ⟨hacc, hpad, hpe⟩, ⟨hbuf, hue⟩⟩
  · rintro ⟨⟨hT, hTe⟩, ⟨hacc, hpad, hpe⟩, ⟨hbuf, hue⟩⟩
    exact ⟨hT, hTe, hacc, hpad, hpe, hbuf, hue⟩

theorem TblInv.of_same {s t : State} (hs : SameTbl s t) (h : TblInv s) : TblInv t := by
  obtain ⟨h1, h2, h3, h4⟩ := hs
  simpa only [TblInv, TblErrLegal, h1, h2, h3, h4] using h

theorem PkInv.of_same {s t : State} (hs : SamePk s t) (h : PkInv s) : PkInv t := by
  obtain ⟨h1, h2, -, -, h5, h6, h7, -⟩ := hs
  simpa only [PkInv, PkErrLegal, h1, h2, h5, h6, h7] using h

theorem UpInv.of_same {s t : State} (hs : SameUp s t) (h : UpInv s) : UpInv t := by
  obtain ⟨h1, -, -, h4, h5, -⟩ := hs
  simpa only [UpInv, UpErrLegal, h1, h4, h5] using h

/-- The invariant does not read the decoder's state (R22, R34, R61). -/
theorem Inv.of_same {s t : State} (hT : SameTbl s t) (hP : SamePk s t) (hU : SameUp s t) (h : Inv s) : Inv t := by
  obtain ⟨hTs, hPs, hUs⟩ := (inv_iff s).mp h
  exact (inv_iff t).mpr ⟨hTs.of_same hT, hPs.of_same hP, hUs.of_same hU⟩

/-! ## Legal error values without an error -/

theorem TblErrLegal.of_noErr {s : State} (h : TblErrLegal s) (h0 : s.tblErr = 0) : s.tblSub = 0 ∧ s.tblErrSym = 0 := by
  obtain ⟨-, hrest⟩ | ⟨h2, -, -⟩ := h
  · exact hrest
  · simp [h0] at h2

theorem PkErrLegal.of_noErr {s : State} (h : PkErrLegal s) (h0 : s.pkErr = 0) : s.pkSub = 0 ∧ s.pkBadSym = 0 := by
  obtain ⟨hsub, ⟨-, hbad⟩ | ⟨h1, -⟩⟩ := h
  · exact ⟨hsub, hbad⟩
  · simp [h0] at h1

theorem UpErrLegal.of_noErr {s : State} (h : UpErrLegal s) (h0 : s.upErr = 0) : s.upSub = 0 := by
  obtain ⟨-, hsub⟩ | ⟨⟨h3, -⟩ | ⟨h4, -⟩, -⟩ := h
  · exact hsub
  · simp [h0] at h3
  · simp [h0] at h4

/-! ## The table loader -/

theorem tableOk_emptyTable : TableOk emptyTable := by
  intro sym code h
  simp at h

theorem TableOk.write {T : Table} (h : TableOk T) (sym : Byte) (code : BitString) (h1 : 1 ≤ code.length)
    (h2 : code.length ≤ Config.maxCodeLen) : TableOk (T.write sym code) := by
  intro other c hc
  by_cases ho : other = sym
  · subst ho
    rw [read_write_same] at hc
    cases hc
    exact ⟨h1, h2⟩
  · rw [read_write_other T sym other code ho] at hc
    exact h other c hc

/-- No valid code is longer than MAX_CODE_LEN, so MAXL is not (R23, R25). -/
theorem TableOk.maxl_le {T : Table} (h : TableOk T) : T.maxl ≤ Config.maxCodeLen :=
  Machine.maxl_le T _ fun sym code hr => (h sym code hr).2

theorem tblLoad_keeps_tblInv (sym : Byte) (code : BitString) (s : State) (h : TblInv s) :
    TblInv (tblLoad Config.maxCodeLen sym code s) := by
  obtain ⟨hT, hL⟩ := h
  obtain ⟨-, he⟩ | ⟨-, -, he⟩ | ⟨-, -, -, he⟩ | ⟨-, -, -, -, he⟩ | ⟨h0, h1, h2, -, he⟩ :=
    tblLoad_cases Config.maxCodeLen sym code s <;> rw [he]
  · exact ⟨hT, hL⟩
  · exact ⟨tableOk_emptyTable, .inr ⟨rfl, .inl rfl, rfl⟩⟩
  · exact ⟨tableOk_emptyTable, .inr ⟨rfl, .inr (.inl rfl), rfl⟩⟩
  · exact ⟨tableOk_emptyTable, .inr ⟨rfl, .inr (.inr rfl), rfl⟩⟩
  · exact ⟨hT.write sym code h1 h2, .inl ⟨h0, hL.of_noErr h0⟩⟩

theorem exec_tbl_keeps_inv (i : Instr) (s t : State) (hi : isTbl i = true) (h : Inv s) (he : exec i s = .next t) :
    Inv t := by
  obtain ⟨hP, hU, -⟩ := exec_tbl_frame i s t hi he
  obtain ⟨hTs, hPs, hUs⟩ := (inv_iff s).mp h
  refine (inv_iff t).mpr ⟨?_, hPs.of_same hP, hUs.of_same hU⟩
  cases i with
  | tblClr => cases he; exact ⟨tableOk_emptyTable, .inl ⟨rfl, rfl, rfl⟩⟩
  | tblLd sym code => cases he; exact tblLoad_keeps_tblInv sym code s hTs
  | _ => cases hi

/-! ## The pack engine -/

theorem execPkSym_keeps_pkInv (sym : Byte) (s t : State) (h : PkInv s) (he : execPkSym sym s = .next t) : PkInv t := by
  obtain ⟨hacc, hpad, hL⟩ := h
  obtain ⟨-, heq⟩ | ⟨-, -, heq⟩ | ⟨h0, code, -, heq⟩ := execPkSym_cases sym s <;> rw [heq] at he
  · cases he
    exact ⟨hacc, hpad, hL⟩
  · cases he
    exact ⟨by simp, hpad, rfl, .inr ⟨rfl, rfl⟩⟩
  · rw [pkAppend_eq code s hacc] at he
    cases he
    obtain ⟨hsub, hbad⟩ := hL.of_noErr h0
    have hrest : (restBits (s.pkAcc ++ code)).length ≤ 7 := by
      rw [restBits_length]
      omega
    exact ⟨hrest, hpad, hsub, .inl ⟨h0, hbad⟩⟩

theorem pkFlushPending_keeps_pkInv (s : State) (h : PkInv s) (h0 : s.pkErr = 0) : PkInv (pkFlushPending s) := by
  obtain ⟨hacc, -, hL⟩ := h
  obtain ⟨hsub, hbad⟩ := hL.of_noErr h0
  rw [pkFlushPending_eq]
  split
  · exact ⟨hacc, by simp, hsub, .inl ⟨h0, hbad⟩⟩
  · rename_i hne
    have hpos : 0 < s.pkAcc.length := List.length_pos_iff.mpr hne
    have hpad : 8 - s.pkAcc.length ≤ 7 := by omega
    exact ⟨by simp, hpad, hsub, .inl ⟨h0, hbad⟩⟩

theorem exec_pk_keeps_inv (i : Instr) (s t : State) (hi : isPk i = true) (h : Inv s) (he : exec i s = .next t) :
    Inv t := by
  obtain ⟨hT, hU, -⟩ := exec_pk_frame i s t hi he
  obtain ⟨hTs, hPs, hUs⟩ := (inv_iff s).mp h
  refine (inv_iff t).mpr ⟨hTs.of_same hT, ?_, hUs.of_same hU⟩
  cases i with
  | pkStart => cases he; exact ⟨Nat.zero_le _, Nat.zero_le _, rfl, .inl ⟨rfl, rfl⟩⟩
  | pkSym sym => exact execPkSym_keeps_pkInv sym s t hPs he
  | pkFlush =>
    simp only [exec, execPkFlush] at he
    split at he <;> cases he
    · exact hPs
    · rename_i hf
      exact pkFlushPending_keeps_pkInv s hPs (by simpa using hf)
  | _ => cases hi

/-! ## The unpack engine -/

/-- The bit loop keeps the buffer within the longest code, and an overflow leaves it empty (R31, R151). -/
theorem upFeed_keeps_upInv (x : BitString) (s : State) (hT : TableOk s.table) (h : UpInv s) (h0 : s.upErr = 0) :
    UpInv (upFeed x s) := by
  obtain ⟨hbuf, hL⟩ := h
  have hlen : (unpackBits s.table s.upBuf x).buf.length ≤ Config.maxCodeLen :=
    le_trans (unpackBits_buf_length s.table s.upBuf x) (max_le hbuf hT.maxl_le)
  rw [upFeed_eq]
  refine ⟨hlen, ?_⟩
  cases ho : (unpackBits s.table s.upBuf x).overflow with
  | true => exact .inr ⟨.inl ⟨rfl, .inl rfl⟩, unpackBits_overflow_buf s.table s.upBuf x ho⟩
  | false => exact .inl ⟨h0, hL.of_noErr h0⟩

theorem execUpTail_keeps_upInv (b : Byte) (nv : BitVec 4) (s t : State) (hT : TableOk s.table) (h : UpInv s)
    (he : execUpTail b nv s = .next t) : UpInv t := by
  obtain ⟨-, heq⟩ | ⟨h0, -, heq⟩ | ⟨-, -, heq⟩ := execUpTail_cases b nv s <;> rw [heq] at he <;> cases he
  · exact h
  · exact upFeed_keeps_upInv _ s hT h h0
  · exact ⟨by simp, .inr ⟨.inr ⟨rfl, rfl⟩, rfl⟩⟩

theorem execUpEnd_keeps_upInv (s t : State) (h : UpInv s) (he : execUpEnd s = .next t) : UpInv t := by
  rw [execUpEnd] at he
  split at he
  · cases he
    exact h
  · split at he <;> cases he
    · exact ⟨by simp, .inr ⟨.inl ⟨rfl, .inr rfl⟩, rfl⟩⟩
    · exact h

theorem exec_up_keeps_inv (i : Instr) (s t : State) (hi : isUp i = true) (h : Inv s) (he : exec i s = .next t) :
    Inv t := by
  obtain ⟨hT, hP, -⟩ := exec_up_frame i s t hi he
  obtain ⟨hTs, hPs, hUs⟩ := (inv_iff s).mp h
  refine (inv_iff t).mpr ⟨hTs.of_same hT, hPs.of_same hP, ?_⟩
  cases i with
  | upStart => cases he; exact ⟨Nat.zero_le _, .inl ⟨rfl, rfl⟩⟩
  | upByte b =>
    simp only [exec, execUpByte] at he
    split at he <;> cases he
    · exact hUs
    · rename_i hf
      exact upFeed_keeps_upInv _ s hTs.1 hUs (by simpa using hf)
  | upTail b nv => exact execUpTail_keeps_upInv b nv s t hTs.1 hUs he
  | upEnd => exact execUpEnd_keeps_upInv s t hUs he
  | _ => cases hi

/-! ## Every command, and the step around it -/

theorem exec_keeps_inv (i : Instr) (s t : State) (h : Inv s) (he : exec i s = .next t) : Inv t := by
  cases i with
  | nop => cases he; exact h
  | reservedAB op | reservedCF op =>
    cases he
    exact h.of_same (sameTbl_refl s) (samePk_refl s) (sameUp_refl s)
  | tblClr | tblLd sym code => exact exec_tbl_keeps_inv _ s t rfl h he
  | pkStart | pkSym sym | pkFlush => exact exec_pk_keeps_inv _ s t rfl h he
  | upStart | upByte b | upTail b nv | upEnd => exact exec_up_keeps_inv _ s t rfl h he

/-- Settles O59: a step discards a word or consumes and executes a command; the invariant reads neither CQ nor
CMD_WORDS, and each engine's commands keep its own part of the invariant and leave the other parts alone. -/
theorem stepKeepsTheInvariant : Obligations.StepKeepsTheInvariant := by
  intro s t h hst
  obtain ⟨-, hs⟩ | ⟨-, w, ws, -, hs⟩ | ⟨-, i, rest, -, hs⟩ | ⟨-, -, hs⟩ := step_cases s <;> rw [hs] at hst
  · cases hst
  · cases hst
    exact h.of_same (sameTbl_refl s) (samePk_refl s) (sameUp_refl s)
  · have hc : Inv (consume i.words s) := h.of_same (sameTbl_refl s) (samePk_refl s) (sameUp_refl s)
    exact exec_keeps_inv i _ t hc hst
  · cases hst

/-- Settles O58: the table is empty, both buffers are empty and no error is recorded. -/
theorem resetMeetsTheInvariant : Obligations.ResetMeetsTheInvariant :=
  (inv_iff _).mpr ⟨⟨tableOk_emptyTable, .inl ⟨rfl, rfl, rfl⟩⟩,
    ⟨Nat.zero_le _, Nat.zero_le _, rfl, .inl ⟨rfl, rfl⟩⟩, ⟨Nat.zero_le _, .inl ⟨rfl, rfl⟩⟩⟩

end Sys2Proof.Safety
end

section
/-! PROOF of the fields of the register bank (R25, R35 to R45) and of the state after reset (R51): O50 to O53, O56. -/

namespace Sys2Proof

/-! ## A field of a word of several fields -/

theorem fieldAt_getLsbD (lo : Nat) {n : Nat} (v : BitVec n) (i : Nat) (h : i < 32) :
    (fieldAt lo v).getLsbD i = (decide (lo ≤ i) && v.getLsbD (i - lo)) := by
  rw [BitVec.getLsbD_eq_getElem h, fieldAt_getElem lo v i h]

@[simp] theorem extractLsb'_fieldAt_same (lo : Nat) {n : Nat} (v : BitVec n) (h : lo + n ≤ 32) :
    (fieldAt lo v).extractLsb' lo n = v := by
  apply BitVec.eq_of_getLsbD_eq
  intro i hi
  have h32 : lo + i < 32 := by omega
  simp [fieldAt_getElem, hi, h32]

@[simp] theorem extractLsb'_fieldAt_other (lo : Nat) {n : Nat} (v : BitVec n) (a k : Nat) (h : a + k ≤ 32)
    (hd : lo + n ≤ a ∨ a + k ≤ lo) : (fieldAt lo v).extractLsb' a k = 0#k := by
  apply BitVec.eq_of_getLsbD_eq
  intro i hi
  have h32 : a + i < 32 := by omega
  rw [BitVec.getLsbD_extractLsb', fieldAt_getLsbD lo v _ h32]
  obtain hd | hd := hd
  · simp [BitVec.getLsbD_of_ge v (a + i - lo) (by omega)]
  · have hlo : ¬ lo ≤ a + i := by omega
    simp [hlo]

end Sys2Proof

namespace Sys2Proof.Machine

open Sys2Proof.Safety

/-! ## The state after reset -/

@[simp] theorem nvalid_emptyTable : Table.nvalid emptyTable = 0 := by
  refine List.countP_eq_zero.mpr fun e he => ?_
  obtain ⟨sym, rfl⟩ := exists_read_of_mem emptyTable e he
  simp

@[simp] theorem maxl_emptyTable : Table.maxl emptyTable = 0 :=
  Nat.le_zero.mp (maxl_le emptyTable 0 (by simp))

theorem reset_table : State.reset.table = emptyTable := rfl

/-- Settles O56: every field is the literal of `State.reset`, and the empty table reads as no code. -/
theorem resetValues : Obligations.ResetValues := by
  intro s
  refine ⟨State.reset, rfl, fun sym => ?_, ?_, ?_, ?_⟩
  · rw [reset_table, read_emptyTable]
  · rw [reset_table, nvalid_emptyTable]
  · rw [reset_table, maxl_emptyTable]
  · exact ⟨rfl, rfl, rfl, rfl, rfl, rfl, rfl, rfl, rfl, rfl, rfl, rfl, rfl, rfl, rfl, rfl, rfl, rfl, rfl, rfl, rfl⟩

/-! ## The registers of each index (R35) -/

@[simp] theorem readReg_zero (s : State) : readReg 0#4 s = regStatus s := rfl
@[simp] theorem readReg_one (s : State) : readReg 1#4 s = regTblInfo s := rfl
@[simp] theorem readReg_two (s : State) : readReg 2#4 s = regPkBuf s := rfl

/-! ## The registers at reset -/

theorem regStatus_reset : regStatus State.reset = 0 := by decide

theorem regTblInfo_reset : regTblInfo State.reset = 0 := by
  rw [regTblInfo, reset_table, nvalid_emptyTable, maxl_emptyTable]
  decide

theorem regPkBuf_reset : regPkBuf State.reset = 0 := by decide

/-- Every register reads 0 at reset (R38 to R45). -/
theorem readReg_reset (idx : BitVec 4) : readReg idx State.reset = 0 := by
  rw [readReg]
  split
  case h_1 => exact regStatus_reset
  case h_2 => exact regTblInfo_reset
  case h_3 => exact regPkBuf_reset
  all_goals rfl

/-- IDX 9 to 15 read 0 (R45). -/
theorem readReg_reserved (idx : BitVec 4) (s : State) (h : 9 ≤ idx.toNat) : readReg idx s = 0 := by
  rw [readReg]
  split
  case h_10 => rfl
  all_goals omega

/-- UL is the whole length of a buffer of at most 255 bits (R42). -/
theorem regUpBuf_toNat (s : State) (h : s.upBuf.length ≤ 255) : (regUpBuf s).toNat = s.upBuf.length := by
  simp [regUpBuf, fieldAt]
  omega

/-- Settles O53: each counter register is its counter by definition; `readReg_reset`, `readReg_reserved` and
`regUpBuf_toNat` give the rest. -/
theorem counterAndReservedRegisters : Obligations.CounterAndReservedRegisters := by
  refine ⟨readReg_reset, fun s => ⟨rfl, rfl, rfl, rfl, rfl, fun idx h => ⟨readReg_reserved idx s h, fun hq => ?_⟩,
    regUpBuf_toNat s⟩⟩
  simp [hostStep, hq, readReg_reserved idx s h]

/-! ## STATUS -/

theorem tblErrLegal_values {s : State} (h : TblErrLegal s) : (s.tblErr = 0 ∨ s.tblErr = 2) ∧ s.tblSub ≤ 3 := by
  obtain ⟨he, hs, -⟩ | ⟨he, hs | hs | hs, -⟩ := h <;> simp [he, hs]

theorem pkErrLegal_values {s : State} (h : PkErrLegal s) : (s.pkErr = 0 ∨ s.pkErr = 1) ∧ s.pkSub = 0 := by
  obtain ⟨hs, ⟨he, -⟩ | ⟨he, -⟩⟩ := h <;> simp [he, hs]

theorem upErrLegal_values {s : State} (h : UpErrLegal s) :
    (s.upErr = 0 ∨ s.upErr = 3 ∨ s.upErr = 4) ∧ s.upSub ≤ 2 := by
  obtain ⟨he, hs⟩ | ⟨⟨he, hs | hs⟩ | ⟨he, hs⟩, -⟩ := h <;> simp [he, hs]

/-- The legal values of the fields of STATUS (R38). -/
theorem status_values_of_inv {s : State} (h : Inv s) :
    (s.tblErr = 0 ∨ s.tblErr = 2) ∧ s.tblSub ≤ 3 ∧ (s.pkErr = 0 ∨ s.pkErr = 1) ∧ s.pkSub = 0 ∧
      (s.upErr = 0 ∨ s.upErr = 3 ∨ s.upErr = 4) ∧ s.upSub ≤ 2 := by
  obtain ⟨hTe, hTs⟩ := tblErrLegal_values h.tblErr
  obtain ⟨hPe, hPs⟩ := pkErrLegal_values h.pkErr
  obtain ⟨hUe, hUs⟩ := upErrLegal_values h.upErr
  exact ⟨hTe, hTs, hPe, hPs, hUe, hUs⟩

theorem regStatus_halt (s : State) : (regStatus s).getLsbD 24 = s.halt := by
  simp [regStatus, fieldAt_getElem]

/-- Settles O50: each field is read back by `extractLsb'_fieldAt_same`, and every other field of the word is 0 there by
`extractLsb'_fieldAt_other`; the legal values are the invariant's. -/
theorem statusFields : Obligations.StatusFields := by
  refine ⟨regStatus_reset, fun s => ?_⟩
  refine ⟨?_, ?_, ?_, ?_, ?_, ?_, regStatus_halt s, ?_, status_values_of_inv⟩
  all_goals simp [regStatus, BitVec.extractLsb'_or]

/-! ## TBL_INFO -/

/-- The entries of the table, in the order of their symbols. -/
theorem toList_eq_map_read (T : Table) : T.toList = (List.range 256).map fun k => T.read (BitVec.ofNat 8 k) := by
  apply List.ext_getElem
  · simp
  · intro i h1 h2
    have hi : i < 256 := by simpa using h1
    simp [Table.read, Nat.mod_eq_of_lt hi]

/-- NVALID is the number of symbols that have a code (R25). -/
theorem nvalid_eq_countP (T : Table) :
    T.nvalid = (List.range 256).countP fun k => (T.read (BitVec.ofNat 8 k)).isSome := by
  rw [Table.nvalid, toList_eq_map_read, List.countP_map]
  rfl

theorem nvalid_le (T : Table) : T.nvalid ≤ 256 := by
  have h : T.toList.countP Option.isSome ≤ T.toList.length := List.countP_le_length
  simpa [Table.nvalid] using h

theorem foldr_max_zero_or_mem (l : List Nat) : l.foldr max 0 = 0 ∨ l.foldr max 0 ∈ l := by
  induction l with
  | nil => exact .inl rfl
  | cons a l ih =>
    rw [List.foldr_cons]
    obtain hle | hle := le_total (l.foldr max 0) a
    · rw [max_eq_left hle]
      exact .inr List.mem_cons_self
    · rw [max_eq_right hle]
      exact ih.imp_right (List.mem_cons_of_mem a)

/-- MAXL is 0 or the length of some valid code (R25). -/
theorem maxl_zero_or_length (T : Table) :
    T.maxl = 0 ∨ ∃ sym code, T.read sym = some code ∧ code.length = T.maxl := by
  obtain h0 | hmem := foldr_max_zero_or_mem (T.toList.map entryLen)
  · exact .inl h0
  · obtain ⟨e, he, hlen⟩ := List.mem_map.mp hmem
    obtain ⟨sym, hsym⟩ := exists_read_of_mem T e he
    cases e with
    | none => exact .inl hlen.symm
    | some code => exact .inr ⟨sym, code, hsym, hlen⟩

theorem regTblInfo_nvalid (s : State) : ((regTblInfo s).extractLsb' 0 9).toNat = s.table.nvalid := by
  have h := nvalid_le s.table
  have hf : (regTblInfo s).extractLsb' 0 9 = BitVec.ofNat 9 s.table.nvalid := by
    simp [regTblInfo, BitVec.extractLsb'_or]
  rw [hf, BitVec.toNat_ofNat, Nat.mod_eq_of_lt (by omega)]

theorem regTblInfo_maxl (s : State) (h : TableOk s.table) : ((regTblInfo s).extractLsb' 16 8).toNat = s.table.maxl := by
  have hm : s.table.maxl ≤ 255 := h.maxl_le
  have hf : (regTblInfo s).extractLsb' 16 8 = BitVec.ofNat 8 s.table.maxl := by
    simp [regTblInfo, BitVec.extractLsb'_or]
  rw [hf, BitVec.toNat_ofNat, Nat.mod_eq_of_lt (by omega)]

/-- Settles O51: NVALID counts the 256 entries in the order of their symbols, and MAXL is a bound that some valid code
reaches. -/
theorem tblInfoFields : Obligations.TblInfoFields := by
  refine ⟨regTblInfo_reset, fun s => ⟨?_, ?_, ?_, fun hT m hm => ?_⟩⟩
  · exact (regTblInfo_nvalid s).trans (nvalid_eq_countP s.table)
  · simp [regTblInfo, BitVec.extractLsb'_or]
  · simp [regTblInfo, BitVec.extractLsb'_or]
  · rw [hm.trans (regTblInfo_maxl s hT)]
    exact ⟨length_le_maxl s.table, maxl_zero_or_length s.table⟩

/-! ## PK_BUF -/

/-- Bit `7 − i` of the padded byte is waiting bit `i`, and 0 past the last (R40). -/
theorem padToByte_getLsbD (x : BitString) (hx : x.length ≤ 8) (i : Nat) (hi : i < 8) :
    (padToByte x).getLsbD (7 - i) = x.getD i false := by
  rw [padToByte, byteOf_getLsbD _ (by simp; omega) i hi]
  by_cases hlt : i < x.length
  · simp [List.getElem?_append_left hlt]
  · have hge : x.length ≤ i := by omega
    have hpad : i - x.length < 8 - x.length := by omega
    simp [List.getElem?_append_right hge, List.getElem?_eq_none hge, hpad]

/-- NB, bits 3:0, is exact for fewer than 16 waiting bits (R40). -/
theorem regPkBuf_nb (s : State) (h : s.pkAcc.length < 16) : ((regPkBuf s).extractLsb' 0 4).toNat = s.pkAcc.length := by
  have hf : (regPkBuf s).extractLsb' 0 4 = BitVec.ofNat 4 s.pkAcc.length := by
    simp [regPkBuf, BitVec.extractLsb'_or]
  rw [hf, BitVec.toNat_ofNat, Nat.mod_eq_of_lt h]

/-- PAD, bits 19:16, is exact below 16 (R40). -/
theorem regPkBuf_pad (s : State) (h : s.pkPad < 16) : ((regPkBuf s).extractLsb' 16 4).toNat = s.pkPad := by
  have hf : (regPkBuf s).extractLsb' 16 4 = BitVec.ofNat 4 s.pkPad := by
    simp [regPkBuf, BitVec.extractLsb'_or]
  rw [hf, BitVec.toNat_ofNat, Nat.mod_eq_of_lt h]

/-- ACC, bits 15:8, is the byte PK_FLUSH would push (R40). -/
theorem regPkBuf_acc (s : State) : (regPkBuf s).extractLsb' 8 8 = padToByte s.pkAcc := by
  simp [regPkBuf, BitVec.extractLsb'_or]

theorem regPkBuf_acc_bit (s : State) (h : s.pkAcc.length ≤ 7) (i : Nat) (hi : i < 8) :
    (regPkBuf s).getLsbD (15 - i) = s.pkAcc.getD i false := by
  have hbit : (regPkBuf s).getLsbD (8 + (7 - i)) = ((regPkBuf s).extractLsb' 8 8).getLsbD (7 - i) := by
    rw [BitVec.getLsbD_extractLsb', decide_eq_true (by omega), Bool.true_and]
  rw [show 15 - i = 8 + (7 - i) by omega, hbit, regPkBuf_acc, padToByte_getLsbD _ (by omega) i hi]

/-- PK_FLUSH without an error pushes the padded byte of the waiting bits (R137). -/
theorem execPkFlush_pushes (s : State) (h0 : s.pkErr = 0) (hne : s.pkAcc ≠ []) :
    ∃ t, execPkFlush s = .next t ∧ t.pko = s.pko ++ [padToByte s.pkAcc] :=
  ⟨pkFlushPending s, by simp [execPkFlush, h0], by rw [pkFlushPending_eq, if_neg hne]⟩

/-- Settles O52: the fields by `extractLsb'_fieldAt_same` and `extractLsb'_fieldAt_other`, NB and PAD exact by their
bounds (`regPkBuf_nb`, `regPkBuf_pad`), and ACC as the padded byte that PK_FLUSH pushes (`execPkFlush_pushes`). -/
theorem pkBufFields : Obligations.PkBufFields := by
  refine ⟨regPkBuf_reset, fun s hacc hpad => ⟨regPkBuf_nb s (by omega), ?_, regPkBuf_acc_bit s hacc,
    regPkBuf_pad s (by omega), ?_, ?_, fun h0 hne => ?_⟩⟩
  · simp [regPkBuf, BitVec.extractLsb'_or]
  · simp [regPkBuf, BitVec.extractLsb'_or]
  · simp [regPkBuf, BitVec.extractLsb'_or]
  · have hbyte : (readReg 2 s).extractLsb' 8 8 = padToByte s.pkAcc := regPkBuf_acc s
    rw [hbyte]
    exact execPkFlush_pushes s h0 hne

end Sys2Proof.Machine
end

section
/-! PROOF that a queue of encoded commands runs as the command sequence (R70, R71, R109): O48. The facts it turns on: the
decoder reads an encoded command back, and no meaning reads CQ or CMD_WORDS. -/

namespace Sys2Proof

/-! ## Encoded commands -/

/-- A one-word command of format N or S is decoded by its opcode and low byte. -/
theorem decode_headerS (op : BitVec 4) (b : Byte) (ws : List Word) (h : op ≠ 2#4) :
    decode (headerS op b :: ws) = .ok (decodeSingle (headerS op b), ws) :=
  decode_single _ ws (by simpa using h)

/-- The decoder reads an encoded command back and leaves the words after it (R81 to R87). -/
theorem decode_encode (i : Instr) (ws : List Word) (h : i.WellFormed) : decode (encode i ++ ws) = .ok (i, ws) := by
  cases i with
  | tblLd sym code =>
    have hlen : code.length < 256 := by simpa [Instr.WellFormed, Instr.wf] using h
    have hl : lenField (headerL 0x2#4 sym code.length) = code.length := lenField_headerL _ _ _ hlen
    rw [encode, List.cons_append, decode_load _ _ (by simp) (by simp [hl])]
    simp [hl, List.take_left', List.drop_left', codeOfPayload_payloadOfCode]
  | upTail b nv =>
    rw [encode, List.singleton_append, decode_single _ ws (by simp)]
    simp [decodeSingle]
  | reservedAB op =>
    have hop : op = 0xA#4 ∨ op = 0xB#4 := by simpa [Instr.WellFormed, Instr.wf] using h
    obtain rfl | rfl := hop <;>
      rw [encode, List.singleton_append, decode_headerS _ _ _ (by decide)] <;> simp [decodeSingle]
  | reservedCF op =>
    have hop : 0xC#4 ≤ op := by simpa [Instr.WellFormed, Instr.wf] using h
    have hcases : op = 0xC#4 ∨ op = 0xD#4 ∨ op = 0xE#4 ∨ op = 0xF#4 := by bv_omega
    obtain rfl | rfl | rfl | rfl := hcases <;>
      rw [encode, List.singleton_append, decode_headerS _ _ _ (by decide)] <;> simp [decodeSingle]
  | _ =>
    rw [encode, List.singleton_append, decode_headerS _ _ _ (by decide)]
    simp [decodeSingle]

/-- What the decoder leaves is the queue without the command's words (R85). -/
theorem drop_words_of_decode (ws rest : List Word) (i : Instr) (h : decode ws = .ok (i, rest)) :
    ws.drop i.words = rest := by
  cases ws with
  | nil => cases h
  | cons w ws =>
    obtain ⟨hw, -, hr⟩ := decode_words w ws rest i h
    rw [hw, hr]

end Sys2Proof

namespace Sys2Proof.Machine

open Sys2Proof.Safety

/-! ## The meanings do not read the queue -/

/-- The state with other words in CQ and another CMD_WORDS. -/
def withQueue (q : List Word) (n : Counter) (s : State) : State := { s with cq := q, cmdWords := n }

@[simp] theorem withQueue_table (q : List Word) (n : Counter) (s : State) : (withQueue q n s).table = s.table := rfl
@[simp] theorem withQueue_pkAcc (q : List Word) (n : Counter) (s : State) : (withQueue q n s).pkAcc = s.pkAcc := rfl
@[simp] theorem withQueue_upBuf (q : List Word) (n : Counter) (s : State) : (withQueue q n s).upBuf = s.upBuf := rfl

/-- An engine has failed whatever waits in CQ. -/
theorem failed_withQueue (e : Engine) (q : List Word) (n : Counter) (s : State) :
    (withQueue q n s).failed e = s.failed e := by
  cases e <;> rfl

theorem consume_withQueue (k : Nat) (q : List Word) (n : Counter) (s : State) :
    consume k (withQueue q n s) = withQueue (q.drop k) (n + BitVec.ofNat 32 k) s := rfl

theorem tblLoad_withQueue (maxLen : Nat) (sym : Byte) (code : BitString) (q : List Word) (n : Counter) (s : State) :
    tblLoad maxLen sym code (withQueue q n s) = withQueue q n (tblLoad maxLen sym code s) := by
  rw [tblLoad, tblLoad, withQueue_table, failed_withQueue]
  split_ifs <;> rfl

theorem pkAppendBit_withQueue (b : Bool) (q : List Word) (n : Counter) (s : State) :
    pkAppendBit b (withQueue q n s) = withQueue q n (pkAppendBit b s) := by
  rw [pkAppendBit, pkAppendBit, withQueue_pkAcc]
  split_ifs <;> rfl

theorem pkAppend_withQueue (x : BitString) (q : List Word) (n : Counter) (s : State) :
    pkAppend x (withQueue q n s) = withQueue q n (pkAppend x s) := by
  induction x generalizing s with
  | nil => rfl
  | cons b x ih => rw [pkAppend, pkAppend, pkAppendBit_withQueue, ih]

theorem pkFlushPending_withQueue (q : List Word) (n : Counter) (s : State) :
    pkFlushPending (withQueue q n s) = withQueue q n (pkFlushPending s) := by
  rw [pkFlushPending, pkFlushPending, withQueue_pkAcc]
  split_ifs <;> rfl

theorem upFeed_withQueue (x : BitString) (q : List Word) (n : Counter) (s : State) :
    upFeed x (withQueue q n s) = withQueue q n (upFeed x s) := by
  rw [upFeed_eq, upFeed_eq]
  rfl

/-- A meaning reads neither CQ nor CMD_WORDS, and keeps both (R100). -/
theorem exec_withQueue (i : Instr) (q : List Word) (n : Counter) (s t : State) (h : exec i s = .next t) :
    exec i (withQueue q n s) = .next (withQueue q n t) := by
  cases i with
  | nop | tblClr | pkStart | upStart | reservedAB op | reservedCF op => cases h; rfl
  | tblLd sym code =>
    cases h
    exact congrArg Host.Outcome.next (tblLoad_withQueue _ sym code q n s)
  | pkSym sym =>
    simp only [exec, execPkSym, failed_withQueue, withQueue_table] at h ⊢
    split_ifs at h ⊢
    · cases h
      rfl
    · cases hr : s.table.read sym with
      | none =>
        simp only [hr] at h ⊢
        cases h
        rfl
      | some code =>
        simp only [hr] at h ⊢
        cases h
        rw [pkAppend_withQueue]
        rfl
  | pkFlush =>
    simp only [exec, execPkFlush, failed_withQueue] at h ⊢
    split_ifs at h ⊢ <;> cases h
    · rfl
    · rw [pkFlushPending_withQueue]
  | upByte b =>
    simp only [exec, execUpByte, failed_withQueue] at h ⊢
    split_ifs at h ⊢ <;> cases h
    · rfl
    · rw [upFeed_withQueue]
  | upTail b nv =>
    simp only [exec, execUpTail, failed_withQueue] at h ⊢
    split_ifs at h ⊢ <;> cases h
    · rfl
    · rw [upFeed_withQueue]
    · rfl
  | upEnd =>
    rw [exec, execUpEnd] at h ⊢
    rw [failed_withQueue, withQueue_upBuf]
    split_ifs at h ⊢ <;> cases h <;> rfl

/-- Only a reserved opcode changes HALT (R34, R103). -/
theorem exec_keeps_halt (i : Instr) (s t : State) (hi : isReserved i = false) (h : exec i s = .next t) :
    t.halt = s.halt := by
  cases i with
  | nop => cases h; rfl
  | tblClr | tblLd sym code =>
    obtain ⟨-, -, hhalt, -⟩ := exec_tbl_frame _ s t rfl h
    exact hhalt
  | pkStart | pkSym sym | pkFlush =>
    obtain ⟨-, -, hhalt, -⟩ := exec_pk_frame _ s t rfl h
    exact hhalt
  | upStart | upByte b | upTail b nv | upEnd =>
    obtain ⟨-, -, hhalt, -⟩ := exec_up_frame _ s t rfl h
    exact hhalt
  | reservedAB op | reservedCF op => cases hi

/-! ## Runs -/

/-- The first command of a sequence that completes, and the rest of it. -/
theorem runCmds_cons (i : Instr) (is : List Instr) (s t : State) (h : runCmds (i :: is) s = .next t) :
    ∃ u, exec i s = .next u ∧ runCmds is u = .next t := by
  rw [runCmds] at h
  split at h
  next u hu => exact ⟨u, hu, h⟩
  next => cases h
  next => cases h

theorem core_run_succ (k : Nat) (s t : State) (h : step s = .next t) : core.run (k + 1) s = core.run k t := by
  have hc : core.step s = .next t := h
  simp only [Host.Core.run, hc]

/-- The step on an encoded command at the head of CQ (R100). -/
theorem step_encoded (i : Instr) (q : List Word) (n : Counter) (s t : State) (hw : i.WellFormed) (hh : s.halt = false)
    (h : exec i s = .next t) :
    step (withQueue (encode i ++ q) n s) = .next (withQueue q (n + BitVec.ofNat 32 i.words) t) := by
  have hd : decode (encode i ++ q) = .ok (i, q) := decode_encode i q hw
  rw [step_command (withQueue (encode i ++ q) n s) i q hh hd, consume_withQueue, drop_words_of_decode _ q i hd]
  exact exec_withQueue i _ _ s t h

theorem run_encoded (is : List Instr) (rest : List Word) (n : Counter) (s t : State) (hh : s.halt = false)
    (hi : ∀ i ∈ is, i.WellFormed ∧ isReserved i = false) (h : runCmds is s = .next t) :
    core.run is.length (withQueue (is.flatMap encode ++ rest) n s) =
      .next (withQueue rest (n + BitVec.ofNat 32 (is.map Instr.words).sum) t) := by
  induction is generalizing n s with
  | nil =>
    cases h
    simp [Host.Core.run]
  | cons i is ih =>
    obtain ⟨u, hu, hrest⟩ := runCmds_cons i is s t h
    obtain ⟨⟨hw, hr⟩, his⟩ := List.forall_mem_cons.mp hi
    have hhu : u.halt = false := (exec_keeps_halt i s u hr hu).trans hh
    rw [List.flatMap_cons, List.append_assoc, List.length_cons,
      core_run_succ _ _ _ (step_encoded i (is.flatMap encode ++ rest) n s u hw hh hu), ih _ u hhu his hrest,
      List.map_cons, List.sum_cons, BitVec.ofNat_add, BitVec.add_assoc]

/-- Settles O48: `run_encoded` on the state seen as itself with its own queue. -/
theorem queueRunsAsTheCommandSequence : Obligations.QueueRunsAsTheCommandSequence := by
  intro is s t rest hh hi hq h
  have hs : s = withQueue (is.flatMap encode ++ rest) s.cmdWords s := by rw [← hq]; rfl
  rw [hs]
  exact run_encoded is rest s.cmdWords s t hh hi h

end Sys2Proof.Machine
end

section
/-! PROOF of what the commands push, and that the room condition bounds the output queues (R62, R66): O46, O47. -/

namespace Sys2Proof.Machine

open Sys2Proof.Safety

/-! ## The frames of the commands that push nothing -/

theorem exec_samePk (i : Instr) (s t : State) (hi : isPk i = false) (h : exec i s = .next t) : SamePk s t := by
  cases i with
  | nop | reservedAB op | reservedCF op => cases h; exact samePk_refl s
  | tblClr | tblLd sym code => exact (exec_tbl_frame _ s t rfl h).1
  | upStart | upByte b | upTail b nv | upEnd => exact (exec_up_frame _ s t rfl h).2.1
  | pkStart | pkSym sym | pkFlush => cases hi

theorem exec_sameUp (i : Instr) (s t : State) (hi : isUp i = false) (h : exec i s = .next t) : SameUp s t := by
  cases i with
  | nop | reservedAB op | reservedCF op => cases h; exact sameUp_refl s
  | tblClr | tblLd sym code => exact (exec_tbl_frame _ s t rfl h).2.1
  | pkStart | pkSym sym | pkFlush => exact (exec_pk_frame _ s t rfl h).2.1
  | upStart | upByte b | upTail b nv | upEnd => cases hi

/-! ## What is pushed to PKO -/

/-- At most `k` bytes are pushed to PKO, and they are counted in PK_BYTES. -/
def PushesPko (k : Nat) (s t : State) : Prop :=
  ∃ bs, t.pko = s.pko ++ bs ∧ bs.length ≤ k ∧ t.pkBytes = s.pkBytes + BitVec.ofNat 32 bs.length

theorem PushesPko.of_samePk {s t : State} (k : Nat) (h : SamePk s t) : PushesPko k s t := by
  obtain ⟨-, -, -, hbytes, -, -, -, hpko⟩ := h
  exact ⟨[], by simp [hpko], Nat.zero_le k, by simp [hbytes]⟩

/-- With at most 7 bits waiting and a code of at most 255 bits, PK_SYM completes at most 32 bytes (R66). -/
theorem execPkSym_pushesPko (sym : Byte) (s t : State) (h : Inv s) (he : execPkSym sym s = .next t) :
    PushesPko 32 s t := by
  obtain ⟨-, heq⟩ | ⟨-, -, heq⟩ | ⟨-, code, hr, heq⟩ := execPkSym_cases sym s <;> rw [heq] at he
  · cases he
    exact .of_samePk _ (samePk_refl s)
  · cases he
    exact ⟨[], by simp, by simp, by simp⟩
  · have hcode : code.length ≤ 255 := (h.tableOk sym code hr).2
    have hacc : s.pkAcc.length ≤ 7 := h.pkAcc
    rw [pkAppend_eq code s hacc] at he
    cases he
    refine ⟨fullBytes (s.pkAcc ++ code), rfl, ?_, ?_⟩
    · rw [fullBytes_length, List.length_append]
      omega
    · rw [fullBytes_length]
      rfl

/-- PK_FLUSH completes at most the one byte that waits (R66). -/
theorem execPkFlush_pushesPko (s t : State) (he : execPkFlush s = .next t) : PushesPko 1 s t := by
  rw [execPkFlush, pkFlushPending_eq] at he
  split_ifs at he <;> cases he
  · exact .of_samePk _ (samePk_refl s)
  · exact ⟨[], by simp, by simp, by simp⟩
  · exact ⟨[padToByte s.pkAcc], rfl, le_refl 1, rfl⟩

theorem exec_pushesPko (i : Instr) (s t : State) (h : Inv s) (hi : i ≠ .pkStart) (he : exec i s = .next t) :
    PushesPko (maxPushPko i) s t := by
  cases i with
  | pkStart => exact absurd rfl hi
  | pkSym sym => exact execPkSym_pushesPko sym s t h he
  | pkFlush => exact execPkFlush_pushesPko s t he
  | _ => exact .of_samePk _ (exec_samePk _ s t rfl he)

/-- PK_START pushes nothing and starts the count again (R134). -/
theorem exec_pko (i : Instr) (s t : State) (h : Inv s) (he : exec i s = .next t) :
    ∃ bs, t.pko = s.pko ++ bs ∧ bs.length ≤ maxPushPko i ∧
      t.pkBytes = (if i = .pkStart then 0 else s.pkBytes + BitVec.ofNat 32 bs.length) := by
  by_cases hi : i = .pkStart
  · subst hi
    cases he
    exact ⟨[], by simp⟩
  · simp only [if_neg hi]
    exact exec_pushesPko i s t h hi he

/-! ## What is pushed to UPO -/

/-- At most `k` symbols are pushed to UPO, and they are counted in UP_SYMS. -/
def PushesUpo (k : Nat) (s t : State) : Prop :=
  ∃ cs, t.upo = s.upo ++ cs ∧ cs.length ≤ k ∧ t.upSyms = s.upSyms + BitVec.ofNat 32 cs.length

theorem PushesUpo.of_sameUp {s t : State} (k : Nat) (h : SameUp s t) : PushesUpo k s t := by
  obtain ⟨-, hsyms, -, -, -, hupo⟩ := h
  exact ⟨[], by simp [hupo], Nat.zero_le k, by simp [hsyms]⟩

/-- The bit loop emits at most one symbol a bit (R153). -/
theorem upFeed_pushesUpo (k : Nat) (x : BitString) (s : State) (hx : x.length ≤ k) : PushesUpo k s (upFeed x s) := by
  rw [upFeed_eq]
  exact ⟨_, rfl, (unpackBits_syms_length s.table s.upBuf x).trans hx, rfl⟩

theorem execUpByte_pushesUpo (b : Byte) (s t : State) (he : execUpByte b s = .next t) : PushesUpo 8 s t := by
  rw [execUpByte] at he
  split_ifs at he <;> cases he
  · exact .of_sameUp _ (sameUp_refl s)
  · exact upFeed_pushesUpo 8 _ s (by simp)

theorem execUpTail_pushesUpo (b : Byte) (nv : BitVec 4) (s t : State) (he : execUpTail b nv s = .next t) :
    PushesUpo 8 s t := by
  obtain ⟨-, heq⟩ | ⟨-, -, heq⟩ | ⟨-, -, heq⟩ := execUpTail_cases b nv s <;> rw [heq] at he <;> cases he
  · exact .of_sameUp _ (sameUp_refl s)
  · exact upFeed_pushesUpo 8 _ s (by simp [leadingBits])
  · exact ⟨[], by simp, by simp, by simp⟩

theorem execUpEnd_pushesUpo (s t : State) (he : execUpEnd s = .next t) : PushesUpo 0 s t := by
  rw [execUpEnd] at he
  split_ifs at he <;> cases he
  · exact .of_sameUp _ (sameUp_refl s)
  · exact ⟨[], by simp, by simp, by simp⟩
  · exact .of_sameUp _ (sameUp_refl s)

theorem exec_pushesUpo (i : Instr) (s t : State) (hi : i ≠ .upStart) (he : exec i s = .next t) :
    PushesUpo (maxPushUpo i) s t := by
  cases i with
  | upStart => exact absurd rfl hi
  | upByte b => exact execUpByte_pushesUpo b s t he
  | upTail b nv => exact execUpTail_pushesUpo b nv s t he
  | upEnd => exact execUpEnd_pushesUpo s t he
  | _ => exact .of_sameUp _ (exec_sameUp _ s t rfl he)

/-- UP_START pushes nothing and starts the count again (R155). -/
theorem exec_upo (i : Instr) (s t : State) (he : exec i s = .next t) :
    ∃ cs, t.upo = s.upo ++ cs ∧ cs.length ≤ maxPushUpo i ∧
      t.upSyms = (if i = .upStart then 0 else s.upSyms + BitVec.ofNat 32 cs.length) := by
  by_cases hi : i = .upStart
  · subst hi
    cases he
    exact ⟨[], by simp⟩
  · simp only [if_neg hi]
    exact exec_pushesUpo i s t hi he

/-- Settles O46: one queue at a time, by `exec_pko` and `exec_upo`. -/
theorem outputQueuesOnlyGrow : Obligations.OutputQueuesOnlyGrow := by
  intro i s t h he
  obtain ⟨bs, hpko, hbs, hbytes⟩ := exec_pko i s t h he
  obtain ⟨cs, hupo, hcs, hsyms⟩ := exec_upo i s t he
  exact ⟨bs, cs, hpko, hupo, hbs, hcs, hbytes, hsyms⟩

/-! ## The room condition -/

theorem maxPushPko_le (i : Instr) : maxPushPko i ≤ 32 := by
  cases i <;> simp [maxPushPko]

theorem maxPushUpo_le (i : Instr) : maxPushUpo i ≤ 8 := by
  cases i <;> simp [maxPushUpo]

theorem roomFor_iff (depth : Nat) (i : Instr) (s : State) :
    roomFor depth i s = true ↔ (maxPushPko i = 0 ∨ s.pko.length + maxPushPko i ≤ depth) ∧
      (maxPushUpo i = 0 ∨ s.upo.length + maxPushUpo i ≤ depth) := by
  simp [roomFor]

theorem canStart_halted (depth : Nat) (s : State) (hh : s.halt = true) (hq : s.cq ≠ []) : canStart depth s = true := by
  have hf : fetch s = .discard := by simp [fetch, hh, hq]
  rw [canStart, hf]

theorem canStart_command (depth : Nat) (s : State) (i : Instr) (rest : List Word) (hh : s.halt = false)
    (hd : decode s.cq = .ok (i, rest)) : canStart depth s = roomFor depth i s := by
  have hq : s.cq ≠ [] := by intro h; rw [h] at hd; cases hd
  have hf : fetch s = .command i := by simp [fetch, hh, hd, hq]
  rw [canStart, hf]

/-- A command that has room takes no output queue over the depth (R66). -/
theorem exec_within_depth (depth : Nat) (i : Instr) (s t : State) (h : Inv s) (he : exec i s = .next t)
    (hroom : roomFor depth i s = true) (hp : s.pko.length ≤ depth) (hu : s.upo.length ≤ depth) :
    t.pko.length ≤ depth ∧ t.upo.length ≤ depth := by
  obtain ⟨hrp, hru⟩ := (roomFor_iff depth i s).mp hroom
  obtain ⟨bs, hpko, hbs, -⟩ := exec_pko i s t h he
  obtain ⟨cs, hupo, hcs, -⟩ := exec_upo i s t he
  rw [hpko, hupo, List.length_append, List.length_append]
  constructor <;> omega

/-- Empty queues of a legal depth have room for every command (R8, R66). -/
theorem roomFor_of_empty (depth : Nat) (i : Instr) (s : State) (hd : 32 ≤ depth) (hp : s.pko = []) (hu : s.upo = []) :
    roomFor depth i s = true := by
  have h1 := maxPushPko_le i
  have h2 := maxPushUpo_le i
  rw [roomFor_iff, hp, hu, List.length_nil]
  omega

/-- Settles O47: a discarded word pushes nothing, and a command is `exec_within_depth` after its words have left CQ. -/
theorem roomConditionKeepsQueuesBounded : Obligations.RoomConditionKeepsQueuesBounded := by
  intro depth s t h hst
  obtain ⟨-, hs⟩ | ⟨hh, w, ws, hq, hs⟩ | ⟨hh, i, rest, hd, hs⟩ | ⟨-, -, hs⟩ := step_cases s <;> rw [hs] at hst
  · cases hst
  · cases hst
    exact ⟨fun _ hp hu => ⟨hp, hu⟩, fun _ _ _ => canStart_halted depth s hh (by simp [hq])⟩
  · rw [canStart_command depth s i rest hh hd]
    have hc : Inv (consume i.words s) := h.of_same (sameTbl_refl s) (samePk_refl s) (sameUp_refl s)
    exact ⟨exec_within_depth depth i (consume i.words s) t hc hst, roomFor_of_empty depth i s⟩
  · cases hst

end Sys2Proof.Machine
end

section
/-! PROOF that a register read drains CQ (R72): O55. Every step takes a word from CQ, so the block comes to a state
without a step. -/

namespace Sys2Proof.Machine

/-- Every command completes from every state (R101). -/
theorem exec_completes (i : Instr) (s : State) : ∃ t, exec i s = .next t := by
  cases i with
  | pkSym sym =>
    obtain ⟨-, he⟩ | ⟨-, -, he⟩ | ⟨-, code, -, he⟩ := execPkSym_cases sym s <;> exact ⟨_, he⟩
  | pkFlush =>
    simp only [exec, execPkFlush]
    split_ifs <;> exact ⟨_, rfl⟩
  | upByte b =>
    simp only [exec, execUpByte]
    split_ifs <;> exact ⟨_, rfl⟩
  | upTail b nv =>
    obtain ⟨-, he⟩ | ⟨-, -, he⟩ | ⟨-, -, he⟩ := execUpTail_cases b nv s <;> exact ⟨_, he⟩
  | upEnd =>
    simp only [exec, execUpEnd]
    split_ifs <;> exact ⟨_, rfl⟩
  | _ => exact ⟨_, rfl⟩

theorem words_pos (i : Instr) : 1 ≤ i.words := by
  cases i <;> simp [Instr.words]

/-- The block has no step: CQ is empty, or its head is a TBL_LD whose payload words are not all there (R100). -/
def Waits (s : State) : Prop := s.cq = [] ∨ (s.halt = false ∧ decode s.cq = .error .payloadMissing)

/-- A block that does not wait has a step, which takes at least one word from CQ. -/
theorem waits_or_step (s : State) :
    (Waits s ∧ ∃ f, step s = .fault f) ∨ ∃ t, step s = .next t ∧ t.cq.length < s.cq.length := by
  obtain ⟨hq, hs⟩ | ⟨-, w, ws, hq, hs⟩ | ⟨-, i, rest, hd, hs⟩ | ⟨hh, hd, hs⟩ := step_cases s
  · exact .inl ⟨.inl hq, _, hs⟩
  · exact .inr ⟨_, hs, by simp [hq]⟩
  · obtain ⟨t, ht⟩ := exec_completes i (consume i.words s)
    obtain ⟨hcq, -⟩ := exec_keeps_queue i _ t ht
    refine .inr ⟨t, hs.trans ht, ?_⟩
    have hpos : 0 < s.cq.length := List.length_pos_iff.mpr (by intro h; rw [h] at hd; cases hd)
    have hwords := words_pos i
    rw [hcq, consume_cq, List.length_drop]
    omega
  · exact .inl ⟨.inr ⟨hh, hd⟩, _, hs⟩

theorem drain_fault (n : Nat) (s : State) (f : Fault) (h : step s = .fault f) : drain n s = s := by
  cases n with
  | zero => rfl
  | succ n => simp only [drain, h]

theorem drain_next (n : Nat) (s t : State) (h : step s = .next t) : drain (n + 1) s = drain n t := by
  simp only [drain, h]

/-- With as much fuel as CQ has words, the drain is a run of the block to a state without a step. -/
theorem drain_spec (n : Nat) (s : State) (hn : s.cq.length ≤ n) :
    Waits (drain n s) ∧ ∃ k, k ≤ s.cq.length ∧ core.run k s = .next (drain n s) := by
  induction n generalizing s with
  | zero => exact ⟨.inl (List.eq_nil_of_length_eq_zero (Nat.le_zero.mp hn)), 0, Nat.zero_le _, rfl⟩
  | succ n ih =>
    obtain ⟨hw, f, hf⟩ | ⟨t, ht, hlt⟩ := waits_or_step s
    · rw [drain_fault _ s f hf]
      exact ⟨hw, 0, Nat.zero_le _, rfl⟩
    · obtain ⟨hw, k, hk, hrun⟩ := ih t (by omega)
      rw [drain_next n s t ht]
      exact ⟨hw, k + 1, by omega, (core_run_succ k s t ht).trans hrun⟩

/-- The queue of a block that waits with a word in CQ begins with an incomplete TBL_LD (R100, R205). -/
theorem Waits.incomplete_load {s : State} (h : Waits s) (hq : s.cq ≠ []) :
    s.halt = false ∧ ∃ w ws, s.cq = w :: ws ∧ opField w = 2#4 ∧ ws.length < payloadCount (lenField w) := by
  obtain h | ⟨hh, hd⟩ := h
  · exact absurd h hq
  · refine ⟨hh, ?_⟩
    obtain ⟨hnil, -⟩ | ⟨w, ws, -, -, hok⟩ | ⟨w, ws, -, -, -, hok⟩ | ⟨w, ws, hcq, hop, hlt, -⟩ := decode_cases s.cq
    · exact absurd hnil hq
    · rw [hok] at hd; cases hd
    · rw [hok] at hd; cases hd
    · exact ⟨w, ws, hcq, hop, hlt⟩

/-- A pop is enabled as soon as its queue is not empty (R62, R72). -/
theorem hostStep_popPko_ne_none (s : State) (h : s.pko ≠ []) : hostStep .popPko s ≠ none := by
  simpa [hostStep] using h

theorem hostStep_popUpo_ne_none (s : State) (h : s.upo ≠ []) : hostStep .popUpo s ≠ none := by
  simpa [hostStep] using h

/-- Settles O55: `drain_spec` gives the run and that the block waits where it ends; a read is enabled there exactly when CQ
is empty. -/
theorem registerReadDrainsTheQueue : Obligations.RegisterReadDrainsTheQueue := by
  intro s idx
  obtain ⟨hw, hrun⟩ := drain_spec s.cq.length s le_rfl
  refine ⟨hrun, fun hq => ?_, fun hq => ⟨?_, hw.incomplete_load hq⟩,
    hostStep_popPko_ne_none s, hostStep_popUpo_ne_none s⟩
  · simp [readDrained, hostStep, hq]
  · simp [readDrained, hostStep, hq]

end Sys2Proof.Machine
end

section
/-! PROOF that the events of the block and the host keep the invariant, so every reachable state meets it (R60, R108): O60. -/

namespace Sys2Proof.Safety

open Sys2Proof.Machine

/-- A host action changes only queues, or resets the block (R108). -/
theorem hostStep_keeps_inv (a : HostAction) (s t : State) (r : Reply) (h : Inv s) (ha : hostStep a s = some (t, r)) :
    Inv t := by
  cases a with
  | write w =>
    cases ha
    exact h.of_same (sameTbl_refl s) (samePk_refl s) (sameUp_refl s)
  | popPko =>
    obtain ⟨b, -, hb⟩ := Option.map_eq_some_iff.mp ha
    cases hb
    exact (inv_iff (dropPko s)).mpr ((inv_iff s).mp h)
  | popUpo =>
    obtain ⟨b, -, hb⟩ := Option.map_eq_some_iff.mp ha
    cases hb
    exact (inv_iff (dropUpo s)).mpr ((inv_iff s).mp h)
  | read idx =>
    rw [hostStep] at ha
    split_ifs at ha
    cases ha
    exact h
  | reset =>
    cases ha
    exact resetMeetsTheInvariant

theorem sysStep_block (s t : State) (h : sysStep .block s = some t) : step s = .next t := by
  rw [sysStep] at h
  split at h
  next u hu => cases h; exact hu
  next => cases h
  next => cases h

theorem sysStep_keeps_inv (e : Event) (s t : State) (h : Inv s) (he : sysStep e s = some t) : Inv t := by
  cases e with
  | block => exact stepKeepsTheInvariant s t h (sysStep_block s t he)
  | host a =>
    obtain ⟨⟨u, r⟩, ha, rfl⟩ := Option.map_eq_some_iff.mp he
    exact hostStep_keeps_inv a s u r h ha

/-- Settles O60: the invariant holds at reset and every event keeps it. -/
theorem reachableStatesMeetTheInvariant : Obligations.ReachableStatesMeetTheInvariant := by
  intro s hs
  induction hs with
  | reset => exact resetMeetsTheInvariant
  | event e s t _ he ih => exact sysStep_keeps_inv e s t ih he

end Sys2Proof.Safety
end

section
/-! PROOF of the encoding both ways (R81 to R87, R94, R96): O1, O2, O5, O6. -/

namespace Sys2Proof

/-- Settles O2: the round trip is `decode_encode`, one case per command. -/
theorem decodeOfEncodeIsIdentity : Obligations.DecodeOfEncodeIsIdentity := decode_encode

/-- Words known to be the encoding of a command are decoded to it, with nothing left. -/
theorem decode_of_encode_eq {i : Instr} {ws : List Word} (hw : i.WellFormed) (h : encode i = ws) :
    encode i = ws ∧ decode ws = .ok (i, []) := by
  subst h
  exact ⟨rfl, by simpa using decode_encode i [] hw⟩

/-- Settles O1: only the six encodings are computed, the decodings follow from the round trip. -/
theorem exampleWordsDecode : Obligations.ExampleWordsDecode :=
  ⟨decode_of_encode_eq (by decide) rfl, decode_of_encode_eq (by decide) rfl,
    fun _ hcode => hcode ▸ decode_of_encode_eq (by decide) rfl,
    decode_of_encode_eq rfl rfl, decode_of_encode_eq rfl rfl, decode_of_encode_eq rfl rfl⟩

/-! ## The headers of R94's table -/

/-- A field at bit 0 is the operand in the low bits of the word. -/
@[simp] theorem fieldAt_zero {n : Nat} (v : BitVec n) : fieldAt 0 v = v.setWidth 32 := BitVec.shiftLeft_zero _

/-- Settles O6: the opcode's field is a constant, and the operands' fields are their shifted values. -/
theorem encodedHeaders : Obligations.EncodedHeaders := by
  refine ⟨rfl, rfl, fun sym code h => ⟨payloadOfCode code, payloadOfCode_length code, ?_⟩, rfl, fun sym => ?_, rfl, rfl,
    fun b => ?_, fun b nv => ?_, rfl⟩
  · rw [encode, headerL, fieldAt_zero, BitVec.setWidth_ofNat_of_le_of_lt (by decide) h]
    rfl
  · rw [encode, headerS, fieldAt_zero]
    rfl
  · rw [encode, headerS, fieldAt_zero]
    rfl
  · rw [encode, headerT, fieldAt_zero]
    rfl

/-! ## The code of a payload -/

/-- Bit `i` of the assembled code is bit `31 − (i mod 32)` of payload word `i div 32` (R86). -/
theorem codeOfPayload_getElem? (len : Nat) (payload : List Word) (i : Nat) (hi : i < len)
    (hp : i / 32 < payload.length) :
    (codeOfPayload len payload)[i]? = (payload[i / 32]?).map fun p => p.getLsbD (31 - i % 32) := by
  simp [codeOfPayload, hi, hp]

/-- Settles O5: the decoder takes exactly the payload words, and `codeOfPayload_getElem?` reads their bits. -/
theorem payloadBitsBecomeTheCode : Obligations.PayloadBitsBecomeTheCode := by
  intro w payload rest hop hlen
  have hcount : payloadCount (lenField w) = payload.length := hlen.symm
  refine ⟨codeOfPayload (lenField w) payload, ?_, codeOfPayload_length _ _, fun i hi => ?_⟩
  · rw [decode_load w _ hop (by simp [hcount]), hcount, List.take_left, List.drop_left]
  · exact codeOfPayload_getElem? _ _ i hi (by omega)

end Sys2Proof
end

section
/-! PROOF that every header word is of exactly one row of the opcode map and is decoded to that row's command (R93):
O3. A row looks at the opcode only, so the rows are compared on the 16 opcodes. -/

namespace Sys2Proof

/-! ## The opcode decides the row -/

theorem opField_and (w v : Word) : opField (w &&& v) = opField w &&& opField v := BitVec.extractLsb'_and

/-- Masking with a mask of opcode bits leaves the masked opcode and 0 elsewhere. -/
theorem and_fieldAt (w : Word) (m : BitVec 4) : w &&& fieldAt 28 m = fieldAt 28 (opField w &&& m) := by
  apply BitVec.eq_of_getLsbD_eq
  intro i hi
  rw [BitVec.getLsbD_and, fieldAt_getLsbD 28 _ i hi, fieldAt_getLsbD 28 _ i hi]
  by_cases h : 28 ≤ i
  · have h4 : i - 28 < 4 := by omega
    simp [opField, h, h4]
  · simp [h]

/-- A row looks at no bit below 28 (R88): its mask and its value lie in the opcode. -/
theorem opRows_in_opcode :
    ∀ r ∈ opRows, fieldAt 28 (opField r.mask) = r.mask ∧ fieldAt 28 (opField r.value) = r.value := by
  decide

/-- A row fits a header word when it fits the opcode. -/
theorem opRow_fits_iff (r : OpRow) (hr : r ∈ opRows) (w : Word) :
    r.fits w = true ↔ opField w &&& opField r.mask = opField r.value := by
  obtain ⟨hm, hv⟩ := opRows_in_opcode r hr
  rw [OpRow.fits, beq_iff_eq]
  constructor
  · intro h
    rw [← h, opField_and]
  · intro h
    rw [← hm, ← hv, and_fieldAt, h]

/-- The place in `opRows` of the row of an opcode (R88, R89). -/
def opcodeRow (op : BitVec 4) : Nat :=
  if op.toNat < 10 then op.toNat else if op.toNat < 12 then 10 else 11

theorem opcodeRow_lt (op : BitVec 4) : opcodeRow op < 12 := by
  rw [opcodeRow]
  split_ifs <;> omega

/-- Of the 12 rows exactly that one fits an opcode. -/
theorem opRows_fit_opcode (op : BitVec 4) (j : Nat) (hj : j < opRows.length) :
    op &&& opField opRows[j].mask = opField opRows[j].value ↔ j = opcodeRow op := by
  revert op j
  decide

/-- Exactly one row fits a header word, the row of its opcode (R93). -/
theorem opRows_fit_iff (w : Word) (j : Nat) (r : OpRow) (h : opRows[j]? = some r) :
    r.fits w = true ↔ j = opcodeRow (opField w) := by
  obtain ⟨hj, rfl⟩ := List.getElem?_eq_some_iff.mp h
  rw [opRow_fits_iff _ (List.getElem_mem hj), opRows_fit_opcode]

/-! ## The decoded command -/

/-- A one-word command is well-formed and of the row of its opcode. -/
theorem decodeSingle_wf_row (w : Word) (h : opField w ≠ 2#4) :
    (decodeSingle w).WellFormed ∧ (decodeSingle w).rowIndex = opcodeRow (opField w) := by
  have hop : (opField w).toNat ≠ 2 := fun h2 => h (BitVec.eq_of_toNat_eq h2)
  rw [decodeSingle]
  split <;> rename_i hn
  case h_10 | h_11 =>
    have hAB : opField w = 0xA#4 ∨ opField w = 0xB#4 := by bv_omega
    exact ⟨by simpa [Instr.WellFormed, Instr.wf] using hAB, by simp [Instr.rowIndex, opcodeRow, hn]⟩
  case h_12 =>
    have hCF : 12 ≤ (opField w).toNat := by grind
    exact ⟨by simpa [Instr.WellFormed, Instr.wf, BitVec.le_def] using hCF,
      by rw [opcodeRow, if_neg (by omega), if_neg (by omega)]; rfl⟩
  all_goals exact ⟨rfl, by simp [Instr.rowIndex, opcodeRow, hn]⟩

/-- What the decoder reads is well-formed and of the row of its header's opcode (R93). -/
theorem decode_wf_row (w : Word) (ws rest : List Word) (i : Instr) (h : decode (w :: ws) = .ok (i, rest)) :
    i.WellFormed ∧ i.rowIndex = opcodeRow (opField w) := by
  by_cases hop : opField w = 2#4
  · by_cases hp : payloadCount (lenField w) ≤ ws.length
    · rw [decode_load w ws hop hp] at h
      cases h
      exact ⟨by simpa [Instr.WellFormed, Instr.wf] using lenField_lt w, by rw [hop]; rfl⟩
    · rw [decode_load_missing w ws hop (by omega)] at h
      cases h
  · rw [decode_single w ws hop] at h
    cases h
    exact decodeSingle_wf_row w hop

/-- Settles O3: the row is the one of the opcode, the decoded command is of that row by `decode_wf_row`, and the two
cases in which a header is decoded are the decoder's own. -/
theorem everyWordDecodesToOneRow : Obligations.EveryWordDecodesToOneRow := by
  intro w ws
  refine ⟨⟨opcodeRow (opField w), opcodeRow_lt _, opRows_fit_iff w⟩, fun i rest h => ?_,
    fun h => ⟨_, decode_single w ws h⟩, fun h hp => ⟨_, decode_load w ws h hp⟩⟩
  obtain ⟨hwf, hrow⟩ := decode_wf_row w ws rest i h
  have hlt : i.rowIndex < opRows.length := hrow ▸ opcodeRow_lt (opField w)
  have hget : opRows[i.rowIndex]? = some opRows[i.rowIndex] := List.getElem?_eq_getElem hlt
  exact ⟨hwf, _, hget, (opRows_fit_iff w _ _ hget).mpr hrow⟩

end Sys2Proof
end

section
/-! PROOF that the reserved bits of a header word are ignored (R90): O4. The decoder reads only the fields that
`assignedMask` keeps, and a step uses the header only through the decoder. -/

namespace Sys2Proof

/-! ## The fields under the mask -/

theorem lowByteField_and (w v : Word) : lowByteField (w &&& v) = lowByteField w &&& lowByteField v :=
  BitVec.extractLsb'_and

theorem nvField_and (w v : Word) : nvField (w &&& v) = nvField w &&& nvField v := BitVec.extractLsb'_and

theorem loadSymField_and (w v : Word) : loadSymField (w &&& v) = loadSymField w &&& loadSymField v :=
  BitVec.extractLsb'_and

/-- Every format assigns the opcode. -/
theorem opField_assignedMask (w : Word) : opField (assignedMask w) = 0xF#4 := by
  rw [assignedMask]
  split <;> rfl

/-- The opcode is kept. -/
@[simp] theorem opField_and_assignedMask (w : Word) : opField (w &&& assignedMask w) = opField w := by
  rw [opField_and, opField_assignedMask]
  exact BitVec.and_allOnes

/-- Formats S and T assign the low byte. -/
theorem lowByteField_and_assignedMask (w : Word)
    (h : (opField w).toNat = 4 ∨ (opField w).toNat = 7 ∨ (opField w).toNat = 8) :
    lowByteField (w &&& assignedMask w) = lowByteField w := by
  have hmask : lowByteField (assignedMask w) = 0xFF#8 := by
    rw [assignedMask]
    obtain h | h | h := h <;> rw [h] <;> rfl
  rw [lowByteField_and, hmask]
  exact BitVec.and_allOnes

/-- Format T assigns NV. -/
theorem nvField_and_assignedMask (w : Word) (h : (opField w).toNat = 8) :
    nvField (w &&& assignedMask w) = nvField w := by
  have hmask : assignedMask w = 0xF0000FFF#32 := by
    rw [assignedMask, h]
    rfl
  rw [hmask, nvField_and]
  exact BitVec.and_allOnes

/-- A one-word command reads no reserved bit. -/
theorem decodeSingle_and_assignedMask (w : Word) : decodeSingle (w &&& assignedMask w) = decodeSingle w := by
  rw [decodeSingle, decodeSingle, opField_and_assignedMask]
  split
  case h_4 h => rw [lowByteField_and_assignedMask w (.inl h)]
  case h_7 h => rw [lowByteField_and_assignedMask w (.inr (.inl h))]
  case h_8 h => rw [lowByteField_and_assignedMask w (.inr (.inr h)), nvField_and_assignedMask w h]
  all_goals rfl

/-- Format L assigns SYM and LEN. -/
theorem assignedMask_load (w : Word) (h : opField w = 2#4) : assignedMask w = 0xF0FF00FF#32 := by
  rw [assignedMask, h]
  rfl

theorem loadSymField_and_assignedMask (w : Word) (h : opField w = 2#4) :
    loadSymField (w &&& assignedMask w) = loadSymField w := by
  rw [assignedMask_load w h, loadSymField_and]
  exact BitVec.and_allOnes

theorem lenField_and_assignedMask (w : Word) (h : opField w = 2#4) :
    lenField (w &&& assignedMask w) = lenField w := by
  rw [assignedMask_load w h]
  exact congrArg BitVec.toNat ((lowByteField_and w _).trans BitVec.and_allOnes)

/-- The decoder reads no reserved bit of the header (R90). -/
theorem decode_and_assignedMask (w : Word) (ws : List Word) :
    decode ((w &&& assignedMask w) :: ws) = decode (w :: ws) := by
  by_cases h : opField w = 2#4
  · rw [decode, decode, opField_and_assignedMask, loadSymField_and_assignedMask w h, lenField_and_assignedMask w h,
      if_pos h, if_pos h]
  · rw [decode_single w ws h, decode_single _ ws (by simpa using h), decodeSingle_and_assignedMask]

end Sys2Proof

namespace Sys2Proof.Machine

/-- Header words that decode alike step alike. -/
theorem step_congr_header (s : State) (v w : Word) (ws : List Word) (h : decode (v :: ws) = decode (w :: ws)) :
    step { s with cq := v :: ws } = step { s with cq := w :: ws } := by
  obtain ⟨hq, -⟩ | ⟨hh, -⟩ | ⟨hh, i, rest, hd, hs⟩ | ⟨hh, hd, hs⟩ := step_cases { s with cq := w :: ws }
  · cases hq
  · rw [step_halted { s with cq := v :: ws } v ws hh rfl, step_halted { s with cq := w :: ws } w ws hh rfl]
  · have hv : decode (v :: ws) = .ok (i, rest) := h.trans hd
    rw [hs, step_command { s with cq := v :: ws } i rest hh hv, consume, consume, drop_words_of_decode _ _ _ hv,
      drop_words_of_decode _ _ _ hd]
  · rw [hs, step_await { s with cq := v :: ws } hh (h.trans hd)]

/-- Settles O4: the cleared header decodes as the header does, so the two step alike. -/
theorem reservedBitsAreIgnored : Obligations.ReservedBitsAreIgnored :=
  fun s w ws => step_congr_header s _ w ws (decode_and_assignedMask w ws)

end Sys2Proof.Machine
end

section
/-! PROOF of what the assembler's pseudo-instructions expand to (R95): O8. -/

namespace Sys2Proof.Machine

/-- The sorted entries come in ascending symbol order. -/
theorem sortEntries_pairwise (entries : List (Byte × BitString)) :
    (sortEntries entries).Pairwise fun a b => a.1.toNat ≤ b.1.toNat := by
  have htotal : Std.Total fun a b : Byte × BitString => a.1.toNat ≤ b.1.toNat := ⟨fun a b => Nat.le_total _ _⟩
  have htrans : IsTrans (Byte × BitString) fun a b => a.1.toNat ≤ b.1.toNat := ⟨fun a b c => Nat.le_trans⟩
  exact List.pairwise_insertionSort _ entries

/-- Settles O8: the table is loaded in the order of `sortEntries`, and a stream's last byte is the one R95 sets apart. -/
theorem pseudoInstructionsExpand : Obligations.PseudoInstructionsExpand := by
  refine ⟨fun entries => ⟨sortEntries entries, List.perm_insertionSort _ entries, sortEntries_pairwise entries, ?_⟩,
    fun bytes => ⟨?_, ?_⟩, fun pad => ?_, fun pad bytes last => ?_⟩
  · rw [AsmLine.words, asmTblLoad, List.flatMap_cons, List.flatMap_map]
  · rw [AsmLine.words, asmPkBytes, List.flatMap_map]
  · simp [AsmLine.words, asmPkStream, asmPkBytes, List.flatMap_map]
  · rfl
  · simp [AsmLine.words, asmUpStream, List.flatMap_map]

end Sys2Proof.Machine
end

section
/-! PROOF of when the block has a step and what it is (R100, R101, R104): O9, O10, O11, O13. -/

namespace Sys2Proof.Machine

/-- Settles O13: `exec_completes`, one case per command. -/
theorem everyCommandCompletes : Obligations.EveryCommandCompletes := exec_completes

/-- Settles O9: `step_command`, where the words that leave CQ are those before the decoder's rest. -/
theorem stepRunsDecodedCommand : Obligations.StepRunsDecodedCommand := by
  intro s i rest hh hd
  rw [step_command s i rest hh hd, consume, drop_words_of_decode _ _ _ hd]

/-- Settles O11: the two holds are `step_idle` and `step_await`; a block that waits with a word in CQ has an incomplete
TBL_LD at the head, so in every other state `waits_or_step` gives a step. -/
theorem noStepExactlyWhenWaiting : Obligations.NoStepExactlyWhenWaiting := by
  refine fun s => ⟨step_idle s, fun w ws hq hh hop hlt => ?_, fun w ws hq hready => ?_⟩
  · exact step_await s hh (hq ▸ decode_load_missing w ws hop hlt)
  · obtain ⟨hwaits, -⟩ | ⟨t, ht, -⟩ := waits_or_step s
    · obtain ⟨hh, w', ws', hq', hop, hlt⟩ := hwaits.incomplete_load (by simp [hq])
      obtain ⟨rfl, rfl⟩ := List.cons.inj (hq.symm.trans hq')
      obtain hhalt | hop' | hle := hready
      · simp [hh] at hhalt
      · exact absurd hop hop'
      · exact absurd hlt (not_lt.mpr hle)
    · exact ⟨t, ht⟩

/-! ## The halted block -/

/-- With HALT = 1 the drain discards every word and does nothing else (R104). -/
theorem drain_halted (n : Nat) (s : State) (hh : s.halt = true) (hn : s.cq.length ≤ n) :
    drain n s = { s with cq := [] } := by
  induction n generalizing s with
  | zero => rw [drain, ← List.eq_nil_of_length_eq_zero (Nat.le_zero.mp hn)]
  | succ n ih =>
    cases hq : s.cq with
    | nil => rw [drain_fault _ s _ (step_idle s hq), ← hq]
    | cons w ws =>
      have hws : ws.length ≤ n := by simpa [hq] using hn
      rw [drain_next n s _ (step_halted s w ws hh hq), ih { s with cq := ws } hh hws]

/-- Only the reset among the host's actions changes HALT (R108). -/
theorem hostStep_keeps_halt (a : HostAction) (s t : State) (r : Reply) (ha : a ≠ .reset)
    (h : hostStep a s = some (t, r)) : t.halt = s.halt := by
  cases a with
  | write w => cases h; rfl
  | popPko | popUpo =>
    obtain ⟨b, -, hb⟩ := Option.map_eq_some_iff.mp h
    cases hb
    rfl
  | read idx =>
    rw [hostStep] at h
    split_ifs at h
    cases h
    rfl
  | reset => exact absurd rfl ha

/-- A step of the halted block leaves it halted (R104). -/
theorem step_keeps_halted (s t : State) (hh : s.halt = true) (h : step s = .next t) : t.halt = true := by
  cases hq : s.cq with
  | nil => rw [step_idle s hq] at h; cases h
  | cons w ws => rw [step_halted s w ws hh hq] at h; cases h; exact hh

/-- Every event but a reset leaves a halted block halted. -/
theorem sysStep_keeps_halted (e : Event) (s t : State) (he : e ≠ .host .reset) (hh : s.halt = true)
    (h : sysStep e s = some t) : t.halt = true := by
  cases e with
  | block => exact step_keeps_halted s t hh (Safety.sysStep_block s t h)
  | host a =>
    obtain ⟨⟨u, r⟩, hu, rfl⟩ := Option.map_eq_some_iff.mp h
    exact (hostStep_keeps_halt a s u r (fun ha => he (ha ▸ rfl)) hu).trans hh

/-- Settles O10: `step_halted` is the step, `drain_halted` the drain, and every event but a reset keeps HALT. -/
theorem haltedBlockDiscardsWords : Obligations.HaltedBlockDiscardsWords := by
  refine fun s hh => ⟨fun w ws => step_halted s w ws hh, drain_halted _ s hh le_rfl, fun e t h h0 => ?_⟩
  by_contra he
  simp [sysStep_keeps_halted e s t he hh h] at h0

end Sys2Proof.Machine
end

section
/-! PROOF of the commands of no engine: NOP and the reserved opcodes (R102, R103): O14, O15. -/

namespace Sys2Proof

/-- The decoder reads an opcode from 0xA on as one of the two reserved commands (R89, R103). -/
theorem decodeSingle_reserved (w : Word) (h : 0xA#4 ≤ opField w) :
    decodeSingle w = .reservedAB (opField w) ∨ decodeSingle w = .reservedCF (opField w) := by
  have hop : 10 ≤ (opField w).toNat := h
  rw [decodeSingle]
  split
  case h_10 | h_11 => exact .inl rfl
  case h_12 => exact .inr rfl
  all_goals omega

end Sys2Proof

namespace Sys2Proof.Machine

/-- Settles O15: the decoder reads one of the two reserved commands, of one word, and both set HALT. -/
theorem reservedOpcodeHalts : Obligations.ReservedOpcodeHalts := by
  refine ⟨fun _ _ => ⟨rfl, rfl⟩, fun s w ws hh hq hop => ?_⟩
  have hne : opField w ≠ 2#4 := fun h2 => absurd (h2 ▸ hop) (by decide)
  have hd : decode s.cq = .ok (decodeSingle w, ws) := hq ▸ decode_single w ws hne
  rw [stepRunsDecodedCommand s _ ws hh hd]
  obtain hr | hr := decodeSingle_reserved w hop <;> rw [hr] <;> rfl

/-! ## NOP -/

/-- CMD_WORDS is read only by its own register, IDX 8, and CQ by none (R35, R44). -/
theorem readReg_withQueue (idx : BitVec 4) (q : List Word) (n : Counter) (s : State) (h : idx ≠ 8#4) :
    readReg idx (withQueue q n s) = readReg idx s := by
  have h8 : idx.toNat ≠ 8 := fun h8 => h (BitVec.eq_of_toNat_eq h8)
  rw [readReg, readReg]
  split
  case h_9 hidx => exact absurd hidx h8
  all_goals rfl

@[simp] theorem readReg_eight (s : State) : readReg 8#4 s = s.cmdWords := rfl

/-- Settles O14: from reset the step on NOP changes only the queue and CMD_WORDS, and every register of the reset state
reads 0. -/
theorem nopChangesNothing : Obligations.NopChangesNothing := by
  refine ⟨fun _ => rfl, rfl, withQueue [] 1 State.reset, ?_, fun idx => ?_⟩
  · exact stepRunsDecodedCommand { State.reset with cq := [0x00000000] } .nop [] rfl rfl
  · by_cases h : idx = 8#4
    · subst h
      rfl
    · rw [readReg_withQueue idx _ _ _ h, readReg_reset]
      exact (if_neg h).symm

end Sys2Proof.Machine
end

section
/-! PROOF that each engine's commands touch and read only that engine and the table (R107), and so that pack and unpack
commands commute: O44, O45. -/

namespace Sys2Proof.Machine

open Sys2Proof.Safety

/-! ## The pack engine reads only itself and the table -/

theorem pkAppendBit_samePk (b : Bool) {s s' : State} (h : SamePk s s') :
    SamePk (pkAppendBit b s) (pkAppendBit b s') := by
  obtain ⟨hacc, hpad, hsyms, hbytes, herr, hsub, hbad, hpko⟩ := h
  rw [pkAppendBit, pkAppendBit, hacc]
  split_ifs
  · exact ⟨rfl, hpad, hsyms, congrArg (· + 1) hbytes, herr, hsub, hbad, congrArg (· ++ _) hpko⟩
  · exact ⟨rfl, hpad, hsyms, hbytes, herr, hsub, hbad, hpko⟩

theorem pkAppend_samePk (x : BitString) {s s' : State} (h : SamePk s s') : SamePk (pkAppend x s) (pkAppend x s') := by
  induction x generalizing s s' with
  | nil => exact h
  | cons b x ih => exact ih (pkAppendBit_samePk b h)

theorem countPkSym_samePk {s s' : State} (h : SamePk s s') : SamePk (countPkSym s) (countPkSym s') := by
  obtain ⟨hacc, hpad, hsyms, hrest⟩ := h
  exact ⟨hacc, hpad, congrArg (· + 1) hsyms, hrest⟩

theorem raise_unknownSymbol_samePk (sym : Byte) {s s' : State} (h : SamePk s s') :
    SamePk (raiseErr (.unknownSymbol sym) s) (raiseErr (.unknownSymbol sym) s') := by
  obtain ⟨-, hpad, hsyms, hbytes, -, -, -, hpko⟩ := h
  exact ⟨rfl, hpad, hsyms, hbytes, rfl, rfl, rfl, hpko⟩

theorem pkFlushPending_samePk {s s' : State} (h : SamePk s s') : SamePk (pkFlushPending s) (pkFlushPending s') := by
  obtain ⟨hacc, -, hsyms, hbytes, herr, hsub, hbad, hpko⟩ := h
  rw [pkFlushPending, pkFlushPending, hacc]
  split_ifs
  · exact ⟨hacc, rfl, hsyms, hbytes, herr, hsub, hbad, hpko⟩
  · exact ⟨rfl, rfl, hsyms, congrArg (· + 1) hbytes, herr, hsub, hbad, congrArg (· ++ _) hpko⟩

theorem failed_pk_of_samePk {s s' : State} (h : SamePk s s') : s'.failed .pk = s.failed .pk := by
  obtain ⟨-, -, -, -, herr, -⟩ := h
  rw [failed_pk, failed_pk, herr]

/-- What a pack command makes of the pack engine depends only on it and on T (R107). -/
theorem exec_pk_depends (i : Instr) (s s' t t' : State) (hi : isPk i = true) (hT : s'.table = s.table)
    (hP : SamePk s s') (h : exec i s = .next t) (h' : exec i s' = .next t') : SamePk t t' := by
  have hfailed := failed_pk_of_samePk hP
  cases i with
  | pkStart =>
    cases h
    cases h'
    obtain ⟨-, -, -, -, -, -, -, hpko⟩ := hP
    exact ⟨rfl, rfl, rfl, rfl, rfl, rfl, rfl, hpko⟩
  | pkSym sym =>
    rw [exec, execPkSym] at h h'
    rw [hfailed, hT] at h'
    split_ifs at h h'
    · cases h
      cases h'
      exact hP
    · cases hr : s.table.read sym with
      | none =>
        simp only [hr] at h h'
        cases h
        cases h'
        exact raise_unknownSymbol_samePk sym hP
      | some code =>
        simp only [hr] at h h'
        cases h
        cases h'
        exact countPkSym_samePk (pkAppend_samePk code hP)
  | pkFlush =>
    rw [exec, execPkFlush] at h h'
    rw [hfailed] at h'
    split_ifs at h h' <;> cases h <;> cases h'
    · exact hP
    · exact pkFlushPending_samePk hP
  | _ => cases hi

/-! ## The unpack engine reads only itself and the table -/

theorem upFeed_sameUp (x : BitString) {s s' : State} (hT : s'.table = s.table) (h : SameUp s s') :
    SameUp (upFeed x s) (upFeed x s') := by
  obtain ⟨hbuf, hsyms, hbits, herr, hsub, hupo⟩ := h
  rw [upFeed_eq, upFeed_eq, hT, hbuf, hsyms, hbits, herr, hsub, hupo]
  exact ⟨rfl, rfl, rfl, rfl, rfl, rfl⟩

/-- An error of the unpacker leaves its counters and UPO, and writes the rest (R151). -/
theorem raise_up_sameUp (e : Err) (he : e.engine = .up) {s s' : State} (h : SameUp s s') :
    SameUp (raiseErr e s) (raiseErr e s') := by
  obtain ⟨-, hsyms, hbits, -, -, hupo⟩ := h
  rw [raiseErr, raiseErr, he]
  exact ⟨rfl, hsyms, hbits, rfl, rfl, hupo⟩

theorem failed_up_of_sameUp {s s' : State} (h : SameUp s s') : s'.failed .up = s.failed .up := by
  obtain ⟨-, -, -, herr, -⟩ := h
  rw [failed_up, failed_up, herr]

/-- What an unpack command makes of the unpack engine depends only on it and on T (R107). -/
theorem exec_up_depends (i : Instr) (s s' t t' : State) (hi : isUp i = true) (hT : s'.table = s.table)
    (hU : SameUp s s') (h : exec i s = .next t) (h' : exec i s' = .next t') : SameUp t t' := by
  have hfailed := failed_up_of_sameUp hU
  cases i with
  | upStart =>
    cases h
    cases h'
    obtain ⟨-, -, -, -, -, hupo⟩ := hU
    exact ⟨rfl, rfl, rfl, rfl, rfl, hupo⟩
  | upByte b =>
    rw [exec, execUpByte] at h h'
    rw [hfailed] at h'
    split_ifs at h h' <;> cases h <;> cases h'
    · exact hU
    · exact upFeed_sameUp _ hT hU
  | upTail b nv =>
    rw [exec, execUpTail] at h h'
    rw [hfailed] at h'
    split_ifs at h h' <;> cases h <;> cases h'
    · exact hU
    · exact upFeed_sameUp _ hT hU
    · exact raise_up_sameUp .badNv rfl hU
  | upEnd =>
    have hbuf : s'.upBuf = s.upBuf := hU.1
    rw [exec, execUpEnd] at h h'
    rw [hfailed, hbuf] at h'
    split_ifs at h h' <;> cases h <;> cases h'
    · exact hU
    · exact raise_up_sameUp .leftover rfl hU
    · exact hU
  | _ => cases hi

/-! ## The table loader reads only itself -/

theorem tblLoad_sameTbl (maxLen : Nat) (sym : Byte) (code : BitString) {s s' : State} (h : SameTbl s s') :
    SameTbl (tblLoad maxLen sym code s) (tblLoad maxLen sym code s') := by
  obtain ⟨htable, herr, hsub, hsym⟩ := h
  rw [tblLoad, tblLoad, failed_tbl, failed_tbl, herr, htable]
  split_ifs
  · exact ⟨htable, herr, hsub, hsym⟩
  · exact ⟨rfl, rfl, rfl, rfl⟩
  · exact ⟨rfl, rfl, rfl, rfl⟩
  · exact ⟨rfl, rfl, rfl, rfl⟩
  · exact ⟨congrArg (Table.write · sym code) htable, herr, hsub, hsym⟩

/-- What a table command makes of the table loader depends only on it (R107). -/
theorem exec_tbl_depends (i : Instr) (s s' t t' : State) (hi : isTbl i = true) (hT : SameTbl s s')
    (h : exec i s = .next t) (h' : exec i s' = .next t') : SameTbl t t' := by
  cases i with
  | tblClr => cases h; cases h'; exact ⟨rfl, rfl, rfl, rfl⟩
  | tblLd sym code => cases h; cases h'; exact tblLoad_sameTbl _ sym code hT
  | _ => cases hi

/-- Settles O44: the frames are the laws of the meanings, the dependence is one lemma per engine. -/
theorem enginesAreIndependent : Obligations.EnginesAreIndependent := by
  intro i s t h
  refine ⟨fun hi => ?_, fun hi => ?_, fun hi => ?_⟩
  · obtain ⟨hT, hU, hC⟩ := exec_pk_frame i s t hi h
    exact ⟨hT, hU, hC, fun s' t' h' htable hP => exec_pk_depends i s s' t t' hi htable hP h h'⟩
  · obtain ⟨hT, hP, hC⟩ := exec_up_frame i s t hi h
    exact ⟨hT, hP, hC, fun s' t' h' htable hU => exec_up_depends i s s' t t' hi htable hU h h'⟩
  · obtain ⟨hP, hU, hC⟩ := exec_tbl_frame i s t hi h
    exact ⟨hP, hU, hC, fun s' t' h' hT => exec_tbl_depends i s s' t t' hi hT h h'⟩

/-! ## Commuting -/

/-- Two states that agree in all four parts are the same state (R20). -/
theorem state_eq_of_same {s t : State} (hT : SameTbl s t) (hP : SamePk s t) (hU : SameUp s t) (hC : SameCtl s t) :
    s = t := by
  cases s
  cases t
  simp only [SameTbl, SamePk, SameUp, SameCtl] at hT hP hU hC
  simp only [hT, hP, hU, hC]

/-- The order of a pack and an unpack command does not matter: each leaves the other's engine and T alone, and finds its
own engine and T the same before and after the other. -/
theorem exec_pk_up_commute (p u : Instr) (s a b c d : State) (hp : isPk p = true) (hu : isUp u = true)
    (hpa : exec p s = .next a) (hub : exec u a = .next b) (huc : exec u s = .next c) (hpd : exec p c = .next d) :
    b = d := by
  obtain ⟨hTa, hUa, hCa⟩ := exec_pk_frame p s a hp hpa
  obtain ⟨hTb, hPb, hCb⟩ := exec_up_frame u a b hu hub
  obtain ⟨hTc, hPc, hCc⟩ := exec_up_frame u s c hu huc
  obtain ⟨hTd, hUd, hCd⟩ := exec_pk_frame p c d hp hpd
  have htc : c.table = s.table := hTc.1
  have hta : a.table = s.table := hTa.1
  have hPad : SamePk a d := exec_pk_depends p s c a d hp htc hPc hpa hpd
  have hUcb : SameUp c b := exec_up_depends u s a c b hu hta hUa huc hub
  apply state_eq_of_same
  · simp_all only [SameTbl, and_self]
  · simp_all only [SamePk, and_self]
  · simp_all only [SameUp, and_self]
  · simp_all only [SameCtl, and_self]

theorem runCmds_pair (i j : Instr) (s t u : State) (h : exec i s = .next t) (h' : exec j t = .next u) :
    runCmds [i, j] s = .next u := by
  simp only [runCmds, h, h']

/-- Settles O45: both orders complete, and `exec_pk_up_commute` gives one state. -/
theorem packAndUnpackCommandsCommute : Obligations.PackAndUnpackCommandsCommute := by
  intro p u s hp hu
  obtain ⟨a, ha⟩ := exec_completes p s
  obtain ⟨b, hb⟩ := exec_completes u a
  obtain ⟨c, hc⟩ := exec_completes u s
  obtain ⟨d, hd⟩ := exec_completes p c
  rw [runCmds_pair p u s a b ha hb, runCmds_pair u p s c d hc hd,
    exec_pk_up_commute p u s a b c d hp hu ha hb hc hd]

end Sys2Proof.Machine
end

section
/-! PROOF that the run of a word sequence ends exactly when it is whole commands (R109, R205): O49. The words written
after reset run as the command sequence, to a state in which the block waits. -/

namespace Sys2Proof.Machine

open Sys2Proof.Safety

/-! ## Command sequences -/

/-- A sequence of commands completes, as each command does (R101). -/
theorem runCmds_completes (is : List Instr) (s : State) : ∃ t, runCmds is s = .next t := by
  induction is generalizing s with
  | nil => exact ⟨s, rfl⟩
  | cons i is ih =>
    obtain ⟨u, hu⟩ := exec_completes i s
    obtain ⟨t, ht⟩ := ih u
    exact ⟨t, by simp only [runCmds, hu, ht]⟩

theorem runCmds_keeps_halt (is : List Instr) (s t : State) (hi : ∀ i ∈ is, isReserved i = false)
    (h : runCmds is s = .next t) : t.halt = s.halt := by
  induction is generalizing s with
  | nil => cases h; rfl
  | cons i is ih =>
    obtain ⟨u, hu, hrest⟩ := runCmds_cons i is s t h
    obtain ⟨hr, his⟩ := List.forall_mem_cons.mp hi
    exact (ih u his hrest).trans (exec_keeps_halt i s u hr hu)

/-! ## The drain of a run -/

theorem Waits.step_fault {s : State} (h : Waits s) : ∃ f, step s = .fault f := by
  obtain hq | ⟨hh, hd⟩ := h
  · exact ⟨_, step_idle s hq⟩
  · exact ⟨_, step_await s hh hd⟩

theorem step_of_core_run_succ (k : Nat) (s t : State) (h : core.run (k + 1) s = .next t) :
    ∃ u, step s = .next u ∧ u.cq.length < s.cq.length ∧ core.run k u = .next t := by
  obtain ⟨-, f, hf⟩ | ⟨u, hu, hlt⟩ := waits_or_step s
  · have hc : core.step s = .fault f := hf
    simp only [Host.Core.run, hc] at h
    cases h
  · exact ⟨u, hu, hlt, (core_run_succ k s u hu).symm.trans h⟩

/-- A run of the block to a state in which it waits is the drain. -/
theorem drain_of_run (k n : Nat) (s t : State) (hrun : core.run k s = .next t) (hw : Waits t)
    (hn : s.cq.length ≤ n) : drain n s = t := by
  induction k generalizing n s with
  | zero =>
    cases hrun
    obtain ⟨f, hf⟩ := hw.step_fault
    exact drain_fault n _ f hf
  | succ k ih =>
    obtain ⟨u, hu, hlt, hrest⟩ := step_of_core_run_succ k s t hrun
    obtain ⟨m, rfl⟩ : ∃ m, n = m + 1 := Nat.exists_eq_add_one.mpr (by omega)
    rw [drain_next m s u hu, ih m u hrest (by omega)]

/-! ## The words written after reset -/

theorem foldl_hostWrite (W : List Word) (s : State) :
    W.foldl (fun s w => hostWrite w s) s = withQueue (s.cq ++ W) s.cmdWords s := by
  induction W generalizing s with
  | nil => simp [withQueue]
  | cons w W ih =>
    rw [List.foldl_cons, ih, List.append_cons]
    rfl

/-- Words written after reset that begin with whole commands drain to the state after the commands, with the words after
them in CQ, when the block waits there. -/
theorem drained_written (is : List Instr) (rest : List Word) (t : State)
    (hi : ∀ i ∈ is, i.WellFormed ∧ isReserved i = false) (h : runCmds is State.reset = .next t)
    (hw : Waits (withQueue rest (BitVec.ofNat 32 (is.map Instr.words).sum) t)) :
    drained ((is.flatMap encode ++ rest).foldl (fun s w => hostWrite w s) State.reset) =
      withQueue rest (BitVec.ofNat 32 (is.map Instr.words).sum) t := by
  have hrun := run_encoded is rest 0#32 State.reset t rfl hi h
  rw [BitVec.zero_add] at hrun
  rw [foldl_hostWrite]
  exact drain_of_run is.length _ _ _ hrun hw le_rfl

/-- The run of words whose drain leaves words in CQ never ends (R109). -/
theorem runWords_eq_none (W : List Word) (s : State)
    (hs : drained (W.foldl (fun s w => hostWrite w s) State.reset) = s) (hq : s.cq ≠ []) : runWords W = none := by
  simp [runWords, hs, hq]

/-- The run of words whose drain empties CQ ends with the outputs and registers of the drained state (R109). -/
theorem runWords_eq_some (W : List Word) (s : State)
    (hs : drained (W.foldl (fun s w => hostWrite w s) State.reset) = s) (hq : s.cq = []) :
    runWords W = some ⟨s.pko, s.upo, (List.range 16).map fun k => readReg (BitVec.ofNat 4 k) s⟩ := by
  simp [runWords, hs, hq]

/-- Settles O49: `drained_written` with the incomplete TBL_LD as the words that stay in CQ, and with none. -/
theorem runEndsExactlyWithWholeCommands : Obligations.RunEndsExactlyWithWholeCommands := by
  intro is hi
  obtain ⟨t, ht⟩ := runCmds_completes is State.reset
  refine ⟨fun w ws hop hlt => ?_, t, ?_⟩
  · have hh : t.halt = false := runCmds_keeps_halt is _ t (fun i h => (hi i h).2) ht
    exact runWords_eq_none _ _ (drained_written is (w :: ws) t hi ht (.inr ⟨hh, decode_load_missing w ws hop hlt⟩))
      (by simp [withQueue])
  · have hd := drained_written is [] t hi ht (.inl rfl)
    rw [List.append_nil] at hd
    exact ⟨_, ht, runWords_eq_some _ _ hd rfl, rfl, rfl,
      congrArg some (readReg_withQueue 0 _ _ t (by decide)), rfl⟩

end Sys2Proof.Machine
end

section
/-! PROOF of the host's actions (R36, R61, R62, R108, R200): O54. -/

namespace Sys2Proof.Machine

theorem hostStep_popPko (s : State) (b : Byte) (bs : List Byte) (h : s.pko = b :: bs) :
    hostStep .popPko s = some ({ s with pko := bs }, .byte b) := by
  simp [hostStep, dropPko, h]

theorem hostStep_popUpo (s : State) (b : Byte) (bs : List Byte) (h : s.upo = b :: bs) :
    hostStep .popUpo s = some ({ s with upo := bs }, .byte b) := by
  simp [hostStep, dropUpo, h]

theorem hostStep_read (idx : BitVec 4) (s : State) :
    hostStep (.read idx) s = if s.cq = [] then some (s, .value (readReg idx s)) else none := by
  simp [hostStep]

/-- Settles O54: a write and a reset are always enabled, a pop looks at the head of its queue, and a read at CQ. -/
theorem hostActions : Obligations.HostActions := by
  refine fun s => ⟨fun _ => rfl, fun h => ?_, hostStep_popPko s, fun h => ?_, hostStep_popUpo s, fun idx h => ?_,
    fun idx h => ?_, rfl⟩
  · simp [hostStep, h]
  · simp [hostStep, h]
  · rw [hostStep_read, if_pos h]
  · rw [hostStep_read, if_neg h]

end Sys2Proof.Machine
end

section
/-! PROOF of what a code-table command does (R6, R110, R111, R113, R114): O16, O17, O18, O19. -/

namespace Sys2Proof.Machine

open Sys2Proof.Safety

/-! ## The empty table -/

theorem eq_emptyTable_iff (T : Table) : T = emptyTable ↔ ∀ sym, T.read sym = none := by
  refine ⟨fun h sym => by rw [h, read_emptyTable], fun h => table_ext T emptyTable fun sym => ?_⟩
  rw [h sym, read_emptyTable]

theorem regTblInfo_cleared {s : State} (hT : s.table = emptyTable) (hsym : s.tblErrSym = 0) : regTblInfo s = 0 := by
  simp [regTblInfo, fieldAt, hT, hsym]

theorem exec_pkSym_unknown (sym : Byte) (s : State) (h0 : s.pkErr = 0) (hr : s.table.read sym = none) :
    exec (.pkSym sym) s = .next (raiseErr (.unknownSymbol sym) s) := by
  simp [exec, execPkSym, h0, hr]

/-- Against the empty table the first bit of a byte matches no code and is longer than the longest one (R153). -/
theorem exec_upByte_emptyTable (b : Byte) (s : State) (h0 : s.upErr = 0) (hT : s.table = emptyTable) :
    exec (.upByte b) s = .next (raiseErr .overflow (takeUpBit (b.getLsbD 7) s)) := by
  have hmatch : s.table.lowestMatch (s.upBuf ++ [b.getLsbD 7]) = none := by
    rw [hT, lowestMatch_none]
    simp
  have hlong : s.table.maxl < (s.upBuf ++ [b.getLsbD 7]).length := by
    rw [hT, maxl_emptyTable]
    simp
  have hfailed : ¬ s.failed .up = true := by simp [h0]
  rw [exec, execUpByte, if_neg hfailed]
  exact congrArg Host.Outcome.next (upFeed_overflow _ _ s hmatch hlong)

/-- An unpack job that goes on after its table was emptied overflows at its next bit (R110, R114). -/
theorem upByte_overflows_of_emptied {s t : State} (hU : SameUp s t) (hT : t.table = emptyTable) (h0 : s.upErr = 0)
    (b : Byte) : ∃ u, exec (.upByte b) t = .next u ∧ u.upErr = 3 ∧ u.upSub = 1 ∧ u.upBits = s.upBits + 1 ∧
      u.upo = s.upo := by
  obtain ⟨-, -, hbits, herr, -, hupo⟩ := hU
  exact ⟨_, exec_upByte_emptyTable b t (herr.trans h0) hT, rfl, rfl, congrArg (· + 1) hbits, hupo⟩

/-- Settles O16: TBL_CLR is two record updates, and an unpack job finds the empty table. -/
theorem tblClrEmptiesTheTable : Obligations.TblClrEmptiesTheTable := by
  intro s
  have he : exec .tblClr s = .next (clearTblErr (clearTable s)) := rfl
  obtain ⟨hP, hU, hC⟩ := exec_tbl_frame .tblClr s _ rfl he
  refine ⟨_, he, read_emptyTable, rfl, rfl, rfl, ?_, hP, hU, hC, upByte_overflows_of_emptied hU rfl⟩
  exact (readReg_one _).trans (regTblInfo_cleared rfl rfl)

/-! ## The load, one equation per case (R111, R113, R115) -/

theorem tblLoad_poisoned (maxLen : Nat) (sym : Byte) (code : BitString) (s : State) (h0 : s.tblErr ≠ 0) :
    tblLoad maxLen sym code s = s :=
  if_pos (failed_tbl_of_ne s h0)

theorem exec_tblLd_poisoned (sym : Byte) (code : BitString) (s : State) (h0 : s.tblErr ≠ 0) :
    exec (.tblLd sym code) s = .next s :=
  congrArg Host.Outcome.next (tblLoad_poisoned _ sym code s h0)

section
variable {maxLen : Nat} {sym : Byte} {code : BitString} {s : State} (h0 : s.tblErr = 0)
include h0

theorem tblLoad_emptyCode (hl : code.length = 0) : tblLoad maxLen sym code s = raiseErr (.emptyCode sym) s := by
  simp [tblLoad, h0, hl]

theorem tblLoad_codeTooLong (hl : 0 < code.length) (hm : maxLen < code.length) :
    tblLoad maxLen sym code s = raiseErr (.codeTooLong sym) s := by
  rw [tblLoad, failed_tbl_of_eq s h0, if_neg Bool.false_ne_true, if_neg hl.ne', if_pos hm]

theorem tblLoad_duplicateSymbol (hl : 0 < code.length) (hm : code.length ≤ maxLen) (hr : s.table.read sym ≠ none) :
    tblLoad maxLen sym code s = raiseErr (.duplicateSymbol sym) s := by
  rw [tblLoad, failed_tbl_of_eq s h0, if_neg Bool.false_ne_true, if_neg hl.ne', if_neg hm.not_gt,
    if_pos (Option.isSome_iff_ne_none.mpr hr)]

theorem tblLoad_valid (hl : 0 < code.length) (hm : code.length ≤ maxLen) (hr : s.table.read sym = none) :
    tblLoad maxLen sym code s = setEntry sym code s := by
  rw [tblLoad, failed_tbl_of_eq s h0, if_neg Bool.false_ne_true, if_neg hl.ne', if_neg hm.not_gt, hr]
  rfl

theorem exec_tblLd_valid (hl : 0 < code.length) (hm : code.length ≤ 255) (hr : s.table.read sym = none) :
    exec (.tblLd sym code) s = .next (setEntry sym code s) :=
  congrArg Host.Outcome.next (tblLoad_valid h0 hl hm hr)

/-- What a load leaves in the table loader when it raises an error: the first check that failed, the symbol, and an
empty table (R113, R114). -/
theorem tblLoad_error (he : (tblLoad maxLen sym code s).tblErr ≠ 0) :
    (tblLoad maxLen sym code s).tblErr = 2 ∧
    (tblLoad maxLen sym code s).tblSub = (if code.length = 0 then 1 else if maxLen < code.length then 2 else 3) ∧
    (tblLoad maxLen sym code s).tblErrSym = sym ∧ (tblLoad maxLen sym code s).table = emptyTable := by
  obtain ⟨hne, -⟩ | ⟨-, hl, h⟩ | ⟨-, hl, hm, h⟩ | ⟨-, hl, hm, -, h⟩ | ⟨-, -, -, -, h⟩ :=
    tblLoad_cases maxLen sym code s
  · exact absurd h0 hne
  · rw [h, if_pos hl]
    exact ⟨rfl, rfl, rfl, rfl⟩
  · rw [h, if_neg hl.ne', if_pos hm]
    exact ⟨rfl, rfl, rfl, rfl⟩
  · rw [h, if_neg hl.ne', if_neg hm.not_gt]
    exact ⟨rfl, rfl, rfl, rfl⟩
  · rw [h] at he
    exact absurd h0 he

end

/-- Sub-code 2 comes only from a code above the bound (R113). -/
theorem tblLoad_tblSub_ne_two {maxLen : Nat} {sym : Byte} {code : BitString} {s : State} (hm : code.length ≤ maxLen)
    (hs : s.tblSub ≠ 2) : (tblLoad maxLen sym code s).tblSub ≠ 2 := by
  obtain ⟨-, h⟩ | ⟨-, -, h⟩ | ⟨-, -, hlong, -⟩ | ⟨-, -, -, -, h⟩ | ⟨-, -, -, -, h⟩ := tblLoad_cases maxLen sym code s
  · rw [h]; exact hs
  · rw [h]; simp
  · exact absurd hm hlong.not_ge
  · rw [h]; simp
  · rw [h]; exact hs

/-- Settles O17: the load is one write of the table. -/
theorem tblLdWritesOneEntry : Obligations.TblLdWritesOneEntry := by
  intro s sym code h0 hl hm hr
  have he := exec_tblLd_valid h0 hl hm hr
  obtain ⟨hP, hU, hC⟩ := exec_tbl_frame _ s _ rfl he
  exact ⟨_, he, read_write_same _ _ _, fun other => read_write_other _ _ _ _, h0, rfl, rfl, hP, hU, hC⟩

/-- Settles O18: the equations of `tblLoad`, one per check; a code that a word can spell has at most 255 bits. -/
theorem tblLdChecksInOrder : Obligations.TblLdChecksInOrder := by
  refine ⟨fun maxLen s sym code h0 => ⟨fun hl => ?_, fun hl hm => ?_, fun hl hm hr => ?_, fun hl hm hr => ?_⟩,
    fun s t sym code hw => ⟨rfl, fun he hs => ?_⟩⟩
  · rw [tblLoad_emptyCode h0 hl]
    exact ⟨rfl, rfl, rfl⟩
  · rw [tblLoad_codeTooLong h0 hl hm]
    exact ⟨rfl, rfl, rfl⟩
  · rw [tblLoad_duplicateSymbol h0 hl hm hr]
    exact ⟨rfl, rfl, rfl⟩
  · rw [tblLoad_valid h0 hl hm hr]
    exact h0
  · have hlen : code.length < 256 := by simpa [Instr.WellFormed, Instr.wf] using hw
    cases he
    exact tblLoad_tblSub_ne_two (Nat.le_of_lt_succ hlen) hs

/-- Settles O19: `tblLoad_error`; both engines then find the empty table. -/
theorem tableErrorPoisonsTheTable : Obligations.TableErrorPoisonsTheTable := by
  intro s t sym code h0 he hne
  obtain ⟨hP, hU, hC⟩ := exec_tbl_frame _ s t rfl he
  cases he
  obtain ⟨herr, hsub, hsym, hT⟩ := tblLoad_error h0 hne
  have hread := (eq_emptyTable_iff _).mp hT
  refine ⟨herr, hsub, hsym, hread, hP, hU, hC, fun hpk b => ?_, upByte_overflows_of_emptied hU hT⟩
  obtain ⟨-, -, -, -, hpkErr, -, -, hpko⟩ := hP
  exact ⟨_, exec_pkSym_unknown b _ (hpkErr.trans hpk) (hread b), rfl, rfl, hpko⟩

end Sys2Proof.Machine
end

section
/-! PROOF of the words a step takes (R22, R112), and that a poisoned table stays so until TBL_CLR or reset (R115): O12, O20. -/

namespace Sys2Proof.Machine

open Sys2Proof.Safety

/-- Settles O12: a meaning leaves the queue as the step's `consume` made it, and the decoder's command has the words its
header gives. -/
theorem stepConsumesTheCommandsWords : Obligations.StepConsumesTheCommandsWords := by
  intro s t hh hstep
  obtain ⟨-, hs⟩ | ⟨hhalt, -⟩ | ⟨-, i, rest, hd, hs⟩ | ⟨-, -, hs⟩ := step_cases s
  · rw [hs] at hstep; cases hstep
  · simp [hh] at hhalt
  · obtain ⟨hcq, hcount⟩ := exec_keeps_queue i _ t (hs.symm.trans hstep)
    cases hq : s.cq with
    | nil => rw [hq] at hd; cases hd
    | cons w ws =>
      obtain ⟨hwords, hle, -⟩ := decode_words w ws rest i (hq ▸ hd)
      rw [hwords] at hcq hcount
      exact ⟨w, ws, headerWords w, rfl, rfl, hle, hcq.trans (congrArg (List.drop _) hq), hcount⟩
  · rw [hs] at hstep; cases hstep

/-! ## What keeps the table loader -/

theorem exec_sameTbl (i : Instr) (s t : State) (hi : isTbl i = false) (h : exec i s = .next t) : SameTbl s t := by
  cases i with
  | nop | reservedAB op | reservedCF op => cases h; exact sameTbl_refl s
  | tblClr | tblLd sym code => cases hi
  | pkStart | pkSym sym | pkFlush => exact (exec_pk_frame _ s t rfl h).1
  | upStart | upByte b | upTail b nv | upEnd => exact (exec_up_frame _ s t rfl h).1

/-- On a poisoned table every command but TBL_CLR leaves the table loader alone (R107, R115). -/
theorem exec_poisoned_sameTbl (i : Instr) (s t : State) (hi : i ≠ .tblClr) (h0 : s.tblErr ≠ 0)
    (h : exec i s = .next t) : SameTbl s t := by
  cases i with
  | tblClr => exact absurd rfl hi
  | tblLd sym code =>
    rw [exec_tblLd_poisoned sym code s h0] at h
    cases h
    exact sameTbl_refl s
  | _ => exact exec_sameTbl _ s t rfl h

/-- Only the reset among the host's actions changes the table loader (R108). -/
theorem hostStep_sameTbl (a : HostAction) (s t : State) (r : Reply) (ha : a ≠ .reset)
    (h : hostStep a s = some (t, r)) : SameTbl s t := by
  cases a with
  | write w => cases h; exact sameTbl_refl s
  | popPko | popUpo =>
    obtain ⟨b, -, hb⟩ := Option.map_eq_some_iff.mp h
    cases hb
    exact sameTbl_refl s
  | read idx =>
    rw [hostStep] at h
    split_ifs at h
    cases h
    exact sameTbl_refl s
  | reset => exact absurd rfl ha

/-- A step that clears the table error has a TBL_CLR at the head of CQ (R115, R187). -/
theorem step_clears_tblErr (s t : State) (h0 : s.tblErr ≠ 0) (h : step s = .next t) (ht : t.tblErr = 0) :
    ∃ rest, decode s.cq = .ok (.tblClr, rest) := by
  obtain ⟨-, hs⟩ | ⟨-, w, ws, -, hs⟩ | ⟨-, i, rest, hd, hs⟩ | ⟨-, -, hs⟩ := step_cases s
  · rw [hs] at h; cases h
  · rw [hs] at h; cases h; exact absurd ht h0
  · by_cases hi : i = .tblClr
    · exact ⟨rest, hi ▸ hd⟩
    · obtain ⟨-, herr, -⟩ := exec_poisoned_sameTbl i (consume i.words s) t hi h0 (hs.symm.trans h)
      exact absurd (herr.symm.trans ht) h0
  · rw [hs] at h; cases h

/-- Settles O20: the load is `exec_tblLd_poisoned`, and the only events that change TBL_ERR are a TBL_CLR and a reset. -/
theorem poisonedTableIgnoresLoads : Obligations.PoisonedTableIgnoresLoads := by
  intro s h0
  refine ⟨fun sym code => exec_tblLd_poisoned sym code s h0, fun sym code rest hh hd => ?_, fun e t he ht => ?_⟩
  · rw [stepRunsDecodedCommand s _ rest hh hd]
    exact exec_tblLd_poisoned sym code _ h0
  · cases e with
    | block => exact .inr ⟨rfl, step_clears_tblErr s t h0 (sysStep_block s t he) ht⟩
    | host a =>
      obtain ⟨⟨u, r⟩, hu, rfl⟩ := Option.map_eq_some_iff.mp he
      by_cases ha : a = .reset
      · exact .inl (congrArg Event.host ha)
      · obtain ⟨-, herr, -⟩ := hostStep_sameTbl a s u r ha hu
        exact absurd (herr.symm.trans ht) h0

end Sys2Proof.Machine
end

section
/-! PROOF that loads of different symbols commute (R117): O21. A run of such loads adds exactly its entries to the table,
and a table is what its reads are. -/

namespace Sys2Proof.Machine

/-- The entries after a write to a free entry. -/
theorem read_write_eq_some_iff (T : Table) (sym other : Byte) (code c : BitString) (hfree : T.read sym = none) :
    (T.write sym code).read other = some c ↔ T.read other = some c ∨ (other, c) = (sym, code) := by
  by_cases h : other = sym
  · subst h
    simp [hfree, eq_comm]
  · simp [read_write_other T sym other code h, h]

/-- Loads without an error of different, free symbols change only T, and add exactly their entries to it (R111). -/
theorem runCmds_loads (l : List (Byte × BitString)) (s : State) (h0 : s.tblErr = 0) (hd : (l.map Prod.fst).Nodup)
    (hl : ∀ e ∈ l, 1 ≤ e.2.length ∧ e.2.length ≤ 255) (hfree : ∀ e ∈ l, s.table.read e.1 = none) :
    ∃ T, runCmds (l.map fun e => .tblLd e.1 e.2) s = .next { s with table := T } ∧
      ∀ sym code, T.read sym = some code ↔ s.table.read sym = some code ∨ (sym, code) ∈ l := by
  induction l generalizing s with
  | nil => exact ⟨s.table, rfl, by simp⟩
  | cons e l ih =>
    obtain ⟨hnew, hd⟩ := List.nodup_cons.mp hd
    obtain ⟨⟨hpos, hmax⟩, hl⟩ := List.forall_mem_cons.mp hl
    obtain ⟨hfree1, hfree⟩ := List.forall_mem_cons.mp hfree
    have hstill : ∀ e' ∈ l, (setEntry e.1 e.2 s).table.read e'.1 = none := fun e' he' => by
      have hne : e'.1 ≠ e.1 := fun h => hnew (h ▸ List.mem_map_of_mem he')
      rw [setEntry_table, read_write_other _ _ _ _ hne, hfree e' he']
    obtain ⟨T, hrun, hT⟩ := ih (setEntry e.1 e.2 s) h0 hd hl hstill
    refine ⟨T, ?_, fun sym code => ?_⟩
    · simp only [List.map_cons, runCmds, exec_tblLd_valid h0 hpos hmax hfree1]
      exact hrun
    · rw [hT, setEntry_table, read_write_eq_some_iff _ _ _ _ _ hfree1, List.mem_cons, or_assoc]

/-- After TBL_CLR such loads leave exactly their entries, and no table error (R110, R111). -/
theorem runCmds_asmTblLoad (l : List (Byte × BitString)) (s : State) (hd : (l.map Prod.fst).Nodup)
    (hl : ∀ e ∈ l, 1 ≤ e.2.length ∧ e.2.length ≤ 255) :
    ∃ T, runCmds (asmTblLoad l) s = .next { clearTblErr (clearTable s) with table := T } ∧
      ∀ sym code, T.read sym = some code ↔ (sym, code) ∈ l := by
  obtain ⟨T, hrun, hT⟩ := runCmds_loads l (clearTblErr (clearTable s)) rfl hd hl fun e _ => read_emptyTable e.1
  refine ⟨T, hrun, fun sym code => ?_⟩
  rw [hT, clearTblErr_table, clearTable_table, read_emptyTable]
  simp

/-- Settles O21: both orders leave the same entries, so the same table. -/
theorem loadOrderDoesNotMatter : Obligations.LoadOrderDoesNotMatter := by
  intro s l1 l2 hp hd hl
  obtain ⟨T, hrun1, hT⟩ := runCmds_asmTblLoad l1 s hd hl
  obtain ⟨U, hrun2, hU⟩ := runCmds_asmTblLoad l2 s ((hp.map Prod.fst).nodup hd) fun e he => hl e (hp.mem_iff.mpr he)
  have hTU : U = T := table_ext U T fun sym => Option.ext fun code => by rw [hT, hU, hp.mem_iff]
  exact ⟨_, hrun1, hTU ▸ hrun2, rfl, hT⟩

end Sys2Proof.Machine
end

section
/-! PROOF of what one pack command does (R130 to R137): O22, O23, O24, O25, O26. -/

namespace Sys2Proof.Machine

open Sys2Proof.Safety

/-! ## The pack commands, one equation per case -/

theorem exec_pkSym_failed (sym : Byte) (s : State) (h0 : s.pkErr ≠ 0) : exec (.pkSym sym) s = .next s :=
  if_pos (failed_pk_of_ne s h0)

theorem exec_pkSym_code (sym : Byte) (code : BitString) (s : State) (h0 : s.pkErr = 0)
    (hr : s.table.read sym = some code) : exec (.pkSym sym) s = .next (countPkSym (pkAppend code s)) := by
  simp [exec, execPkSym, h0, hr]

theorem exec_pkFlush_failed (s : State) (h0 : s.pkErr ≠ 0) : exec .pkFlush s = .next s :=
  if_pos (failed_pk_of_ne s h0)

theorem exec_pkFlush_pending (s : State) (h0 : s.pkErr = 0) : exec .pkFlush s = .next (pkFlushPending s) := by
  simp [exec, execPkFlush, h0]

/-- PK_BUF reads 0 when no bit waits, PAD is 0 and no symbol is recorded (R40). -/
theorem regPkBuf_cleared {s : State} (hacc : s.pkAcc = []) (hpad : s.pkPad = 0) (hbad : s.pkBadSym = 0) :
    regPkBuf s = 0 := by
  rw [regPkBuf, hacc, hpad, hbad]
  decide

/-- Settles O22: PK_START is one record update, after which PK_BUF is `regPkBuf_cleared`. -/
theorem pkStartBeginsAJob : Obligations.PkStartBeginsAJob :=
  fun _ => ⟨_, rfl, rfl, regPkBuf_cleared rfl rfl rfl, rfl, rfl⟩

/-- Settles O23: `pkAppend_eq` for the pack engine, `exec_pk_frame` for the rest. -/
theorem pkSymAppendsTheCode : Obligations.PkSymAppendsTheCode := by
  intro s sym code h0 hr hacc
  have he := exec_pkSym_code sym code s h0 hr
  have hrest : (restBits (s.pkAcc ++ code)).length ≤ 7 := by
    rw [restBits_length]
    omega
  rw [pkAppend_eq code s hacc, List.length_append] at he
  obtain ⟨hT, hU, hC⟩ := exec_pk_frame _ s _ rfl he
  exact ⟨_, he, rfl, rfl, hrest, rfl, rfl, rfl, h0, rfl, rfl, hT, hU, hC⟩

/-- Settles O24: the error is raised before any bit is appended. -/
theorem pkSymUnknownSymbol : Obligations.PkSymUnknownSymbol := fun s sym h0 hr => exec_pkSym_unknown sym s h0 hr

/-- Settles O26: the two cases of `pkFlushPending_eq`. -/
theorem pkFlushPadsTheLastByte : Obligations.PkFlushPadsTheLastByte := by
  intro s h0
  rw [exec_pkFlush_pending s h0, pkFlushPending_eq]
  refine ⟨fun hnil => by rw [if_pos hnil], fun hne hle => ⟨_, by rw [if_neg hne]; rfl, rfl, ?_, ?_⟩⟩
  · exact Nat.sub_le_sub_left hle 8
  · exact Nat.sub_le_sub_left (List.length_pos_iff.mpr hne) 8

/-! ## What clears an error -/

/-- Only the reset among the host's actions changes an error field (R108). -/
theorem hostStep_keeps_err (e : Engine) (a : HostAction) (s t : State) (r : Reply) (ha : a ≠ .reset)
    (h : hostStep a s = some (t, r)) : t.errOf e = s.errOf e := by
  cases a with
  | write w => cases h; cases e <;> rfl
  | popPko | popUpo =>
    obtain ⟨b, -, hb⟩ := Option.map_eq_some_iff.mp h
    cases hb
    cases e <;> rfl
  | read idx =>
    rw [hostStep] at h
    split_ifs at h
    cases h
    rfl
  | reset => exact absurd rfl ha

/-- A step that changes an error field executes the command at the head of CQ (R100). -/
theorem step_changes_err (e : Engine) (s t : State) (h : step s = .next t) (hne : t.errOf e ≠ s.errOf e) :
    ∃ i rest, decode s.cq = .ok (i, rest) ∧ exec i (consume i.words s) = .next t := by
  obtain ⟨-, hs⟩ | ⟨-, w, ws, -, hs⟩ | ⟨-, i, rest, hd, hs⟩ | ⟨-, -, hs⟩ := step_cases s
  · rw [hs] at h; cases h
  · rw [hs] at h
    cases h
    exact absurd (by cases e <;> rfl) hne
  · exact ⟨i, rest, hd, hs.symm.trans h⟩
  · rw [hs] at h; cases h

/-- An event that changes an error field is a reset or a step that executes the command at the head of CQ. -/
theorem sysStep_changes_err (e : Engine) (ev : Event) (s t : State) (h : sysStep ev s = some t)
    (hne : t.errOf e ≠ s.errOf e) :
    ev = .host .reset ∨
      (ev = .block ∧ ∃ i rest, decode s.cq = .ok (i, rest) ∧ exec i (consume i.words s) = .next t) := by
  cases ev with
  | block => exact .inr ⟨rfl, step_changes_err e s t (sysStep_block s t h) hne⟩
  | host a =>
    obtain ⟨⟨u, r⟩, hu, rfl⟩ := Option.map_eq_some_iff.mp h
    by_cases ha : a = .reset
    · exact .inl (congrArg Event.host ha)
    · exact absurd (hostStep_keeps_err e a s u r ha hu) hne

/-- A failed pack engine is left alone by every command but PK_START (R107, R130). -/
theorem exec_failed_samePk (i : Instr) (s t : State) (hi : i ≠ .pkStart) (h0 : s.pkErr ≠ 0)
    (h : exec i s = .next t) : SamePk s t := by
  cases i with
  | pkStart => exact absurd rfl hi
  | pkSym sym =>
    rw [exec_pkSym_failed sym s h0] at h
    cases h
    exact samePk_refl s
  | pkFlush =>
    rw [exec_pkFlush_failed s h0] at h
    cases h
    exact samePk_refl s
  | _ => exact exec_samePk _ s t rfl h

/-- Settles O25: an event that clears PK_ERR changes it, so it is a reset or a command that `exec_failed_samePk` leaves
only PK_START to be. -/
theorem failedPackEngineIgnoresCommands : Obligations.FailedPackEngineIgnoresCommands := by
  refine fun s h0 => ⟨fun sym => exec_pkSym_failed sym s h0, exec_pkFlush_failed s h0, fun e t he ht => ?_⟩
  have hne : t.pkErr ≠ s.pkErr := fun h => h0 (h.symm.trans ht)
  obtain hreset | ⟨hblock, i, rest, hd, hexec⟩ := sysStep_changes_err .pk e s t he hne
  · exact .inl hreset
  · refine .inr ⟨hblock, rest, ?_⟩
    by_cases hi : i = .pkStart
    · exact hi ▸ hd
    · obtain ⟨-, -, -, -, herr, -⟩ := exec_failed_samePk i (consume i.words s) t hi h0 hexec
      exact absurd herr hne

end Sys2Proof.Machine
end

section
/-! PROOF of the packing law (R133, R138, R140): O27, O28, O29. A segment is the PK_SYM of some symbols and the PK_FLUSH
after them; it appends the concatenated codes as one bit-string, and starts and ends with no bit waiting. -/

namespace Sys2Proof.Machine

open Sys2Proof.Safety

/-! ## Appending several codes -/

theorem pkAppend_append (x y : BitString) (s : State) : pkAppend (x ++ y) s = pkAppend y (pkAppend x s) := by
  induction x generalizing s with
  | nil => rfl
  | cons b x ih => exact ih (pkAppendBit b s)

/-- The state after `n` more symbols are counted in PK_SYMS (R135). -/
def countPkSyms (n : Nat) (s : State) : State := { s with pkSyms := s.pkSyms + BitVec.ofNat 32 n }

theorem countPkSyms_zero (s : State) : countPkSyms 0 s = s := by
  simp [countPkSyms]

theorem countPkSyms_countPkSym (n : Nat) (s : State) : countPkSyms n (countPkSym s) = countPkSyms (n + 1) s := by
  simp [countPkSyms, countPkSym, counter_add_one]

theorem pkAppendBit_countPkSym (b : Bool) (s : State) :
    pkAppendBit b (countPkSym s) = countPkSym (pkAppendBit b s) := by
  rw [pkAppendBit, pkAppendBit, countPkSym_pkAcc]
  split_ifs <;> rfl

theorem pkAppend_countPkSym (x : BitString) (s : State) : pkAppend x (countPkSym s) = countPkSym (pkAppend x s) := by
  induction x generalizing s with
  | nil => rfl
  | cons b x ih => rw [pkAppend, pkAppend, pkAppendBit_countPkSym, ih]

theorem runCmds_next {i : Instr} {s t : State} (is : List Instr) (h : exec i s = .next t) :
    runCmds (i :: is) s = runCmds is t := by
  simp only [runCmds, h]

theorem codesOf_cons (T : Table) (sym : Byte) (syms : List Byte) (code : BitString) (h : T.read sym = some code) :
    codesOf T (sym :: syms) = code ++ codesOf T syms := by
  simp [codesOf, h]

/-- PK_SYM of symbols that all have codes appends their concatenated codes and counts the symbols (R133, R135). -/
theorem runCmds_asmPkBytes (syms : List Byte) (s : State) (h0 : s.pkErr = 0) (hc : Covers s.table syms) :
    runCmds (asmPkBytes syms) s = .next (countPkSyms syms.length (pkAppend (codesOf s.table syms) s)) := by
  induction syms generalizing s with
  | nil => rw [List.length_nil, countPkSyms_zero]; rfl
  | cons sym syms ih =>
    obtain ⟨⟨code, hr⟩, hc⟩ := List.forall_mem_cons.mp hc
    obtain ⟨acc, n, bs, hf⟩ := pkAppend_frame code s
    have hT : (countPkSym (pkAppend code s)).table = s.table := by rw [hf]; rfl
    have hE : (countPkSym (pkAppend code s)).pkErr = 0 := by rw [hf]; exact h0
    have hrun := ih (countPkSym (pkAppend code s)) hE (hT ▸ hc)
    rw [hT, pkAppend_countPkSym, countPkSyms_countPkSym, ← pkAppend_append] at hrun
    rw [codesOf_cons _ _ _ _ hr, List.length_cons, ← hrun]
    exact runCmds_next _ (exec_pkSym_code sym code s h0 hr)

/-! ## A segment -/

theorem runCmds_append (is js : List Instr) (s t : State) (h : runCmds is s = .next t) :
    runCmds (is ++ js) s = runCmds js t := by
  induction is generalizing s with
  | nil => cases h; rfl
  | cons i is ih =>
    obtain ⟨u, hu, hrest⟩ := runCmds_cons i is s t h
    exact (runCmds_next _ hu).trans (ih u hrest)

/-- The state after a segment of `n` symbols whose concatenated codes are `x` (R133). -/
def packedSegment (x : BitString) (n : Nat) (s : State) : State := { s with
  pko := s.pko ++ packBits x
  pkBytes := s.pkBytes + BitVec.ofNat 32 ((x.length + 7) / 8)
  pkSyms := s.pkSyms + BitVec.ofNat 32 n
  pkPad := (8 - x.length % 8) % 8
  pkAcc := [] }

/-- PK_FLUSH after the codes of a segment completes its last byte (R133, R137). -/
theorem pkFlushPending_segment (x : BitString) (n : Nat) (s : State) (hacc : s.pkAcc = []) :
    pkFlushPending (countPkSyms n (pkAppend x s)) = packedSegment x n s := by
  have hlen := restBits_length x
  rw [pkAppend_eq x s (by simp [hacc]), hacc, List.nil_append, pkFlushPending_eq, packedSegment, packBits_eq]
  by_cases h : restBits x = []
  · have hmod : x.length % 8 = 0 := by rw [← hlen, h, List.length_nil]
    have hbytes : (x.length + 7) / 8 = x.length / 8 := by omega
    simp [countPkSyms, h, hmod, hbytes]
  · have hpos : 0 < x.length % 8 := hlen ▸ List.length_pos_iff.mpr h
    have hbytes : (x.length + 7) / 8 = x.length / 8 + 1 := by omega
    have hpad : (8 - x.length % 8) % 8 = 8 - x.length % 8 := by omega
    simp [countPkSyms, h, hlen, hbytes, hpad, BitVec.ofNat_add, BitVec.add_assoc]

/-- A segment that starts with no bit waiting pushes the bytes of its concatenated codes (R133). -/
theorem runCmds_segment (syms : List Byte) (s : State) (h0 : s.pkErr = 0) (hacc : s.pkAcc = [])
    (hc : Covers s.table syms) :
    runCmds (asmPkBytes syms ++ [.pkFlush]) s = .next (packedSegment (codesOf s.table syms) syms.length s) := by
  have hbytes := runCmds_asmPkBytes syms s h0 hc
  have hE : (countPkSyms syms.length (pkAppend (codesOf s.table syms) s)).pkErr = 0 := by
    obtain ⟨acc, n, bs, hf⟩ := pkAppend_frame (codesOf s.table syms) s
    rw [hf]
    exact h0
  rw [runCmds_append _ _ _ _ hbytes, runCmds_next _ (exec_pkFlush_pending _ hE), pkFlushPending_segment _ _ s hacc]
  rfl

/-! ## Jobs -/

/-- The state PK_START leaves (R134). -/
def startedPackJob (s : State) : State :=
  { s with pkAcc := [], pkPad := 0, pkSyms := 0, pkBytes := 0, pkErr := 0, pkSub := 0, pkBadSym := 0 }

theorem exec_pkStart (s : State) : exec .pkStart s = .next (startedPackJob s) := rfl

/-- A pack job is PK_START and one segment (R95, R133). -/
theorem runCmds_asmPkStream (syms : List Byte) (s : State) (hc : Covers s.table syms) :
    runCmds (asmPkStream syms) s =
      .next (packedSegment (codesOf s.table syms) syms.length (startedPackJob s)) :=
  (runCmds_next _ (exec_pkStart s)).trans (runCmds_segment syms (startedPackJob s) rfl rfl hc)

/-- A cleared counter holds the sum of two counts (R7). -/
theorem counter_from_zero (m n : Nat) : 0#32 + BitVec.ofNat 32 m + BitVec.ofNat 32 n = BitVec.ofNat 32 (m + n) := by
  rw [BitVec.zero_add, BitVec.ofNat_add]

/-- Settles O27: the job is one segment on the counters that PK_START cleared. -/
theorem packingLaw : Obligations.PackingLaw := fun s syms hc =>
  ⟨_, runCmds_asmPkStream syms s hc, rfl, packBits_length _, rfl, BitVec.zero_add _, BitVec.zero_add _, rfl, rfl,
    sameTbl_refl s, sameUp_refl s, sameCtl_refl s⟩

/-- Settles O28: two segments, each of which starts and ends with no bit waiting. -/
theorem symbolsAfterAFlushStartANewByte : Obligations.SymbolsAfterAFlushStartANewByte := by
  intro s syms more hc hm
  have hjob := runCmds_asmPkStream syms s hc
  have hmore := runCmds_segment more (packedSegment (codesOf s.table syms) syms.length (startedPackJob s)) rfl rfl hm
  rw [List.append_assoc, runCmds_append _ _ _ _ hjob]
  exact ⟨_, hmore, rfl, rfl, counter_from_zero _ _, counter_from_zero _ _, rfl, rfl,
    sameTbl_refl s, sameUp_refl s, sameCtl_refl s⟩

/-- Settles O29: an empty pack job is the packing law of no symbols; UP_START leaves no bit and no error for UP_END. -/
theorem emptyJobsPushNothing : Obligations.EmptyJobsPushNothing := by
  intro s
  constructor
  · have hcodes : codesOf s.table [] = [] := rfl
    obtain ⟨t, hrun, hpko, -, hpad, -, -, herr, -⟩ := packingLaw s [] fun _ h => absurd h List.not_mem_nil
    rw [hcodes, packBits_nil, List.append_nil] at hpko
    rw [hcodes] at hpad
    exact ⟨t, hrun, hpko, hpad, herr⟩
  · exact ⟨_, runCmds_pair .upStart .upEnd s _ _ rfl rfl, rfl, rfl⟩

end Sys2Proof.Machine
end

section
/-! PROOF of the lookup and of one stream bit (R152, R153): O31, O32. -/

namespace Sys2Proof.Machine

open Sys2Proof.Safety

/-- The lookup finds a symbol exactly when it is the lowest of those whose code is the string (R152). -/
theorem lowestMatch_eq_some_iff (T : Table) (x : BitString) (sym : Byte) :
    T.lowestMatch x = some sym ↔
      T.read sym = some x ∧ ∀ other, T.read other = some x → sym.toNat ≤ other.toNat := by
  refine ⟨fun h => ⟨read_of_lowestMatch T x sym h, fun other => lowestMatch_le T x sym other h⟩, fun ⟨hr, hmin⟩ => ?_⟩
  cases h : T.lowestMatch x with
  | none => exact absurd hr ((lowestMatch_none T x).mp h sym)
  | some found =>
    have hle : sym.toNat ≤ found.toNat := hmin found (read_of_lowestMatch T x found h)
    have hge : found.toNat ≤ sym.toNat := lowestMatch_le T x found sym h hr
    rw [BitVec.eq_of_toNat_eq (Nat.le_antisymm hge hle)]

/-- In a `PrefixFree` table no two symbols share a code, since a code begins with itself (R160). -/
theorem eq_of_same_code {T : Table} (hp : PrefixFree T) {x : BitString} {a b : Byte} (ha : T.read a = some x)
    (hb : T.read b = some x) : a = b := by
  by_contra hne
  exact hp a b x x ha hb hne (List.prefix_refl x)

/-- Settles O31: the laws of `lowestMatch`, and `eq_of_same_code` for the remark. -/
theorem lookupFindsTheLowestSymbol : Obligations.LookupFindsTheLowestSymbol := fun T x =>
  ⟨lowestMatch_eq_some_iff T x, lowestMatch_none T x, fun hp _ _ => eq_of_same_code hp⟩

/-! ## One bit -/

section
variable {b : Bool} {s : State}

theorem upBit_match {sym : Byte} (h : s.table.lowestMatch (s.upBuf ++ [b]) = some sym) :
    upBit b s = .ok (setUpBuf [] (pushUpo sym (takeUpBit b s))) := by
  simp only [upBit, h]

theorem upBit_overflow (h : s.table.lowestMatch (s.upBuf ++ [b]) = none)
    (ho : s.table.maxl < (s.upBuf ++ [b]).length) : upBit b s = .stop (raiseErr .overflow (takeUpBit b s)) := by
  simp only [upBit, h, if_pos ho]

theorem upBit_wait (h : s.table.lowestMatch (s.upBuf ++ [b]) = none)
    (ho : ¬ s.table.maxl < (s.upBuf ++ [b]).length) : upBit b s = .ok (takeUpBit b s) := by
  simp only [upBit, h, if_neg ho]

end

/-- Settles O32: the three cases of `upBit`; a match is a code of the table, so it is not longer than MAXL. -/
theorem oneBitMatchesOverflowsOrWaits : Obligations.OneBitMatchesOverflowsOrWaits := by
  intro b s
  have hlen : (s.upBuf ++ [b]).length = s.upBuf.length + 1 := List.length_append
  refine ⟨fun sym h => ⟨upBit_match h, ?_⟩, fun h ho => upBit_overflow h (hlen ▸ ho), fun h hle => ?_⟩
  · exact hlen ▸ length_le_maxl _ _ _ (read_of_lowestMatch _ _ _ h)
  · exact upBit_wait h (hlen ▸ Nat.not_lt.mpr hle)

end Sys2Proof.Machine
end

section
/-! PROOF of what one unpack command does (R150, R155 to R158): O30, O33, O34, O35, O36. -/

namespace Sys2Proof.Safety

open Sys2Proof.Machine

/-- Without an overflow the unpacker takes every bit (R153). -/
theorem unpackBits_used (T : Table) (buf x : BitString) (h : (unpackBits T buf x).overflow = false) :
    (unpackBits T buf x).used = x.length := by
  induction x generalizing buf with
  | nil => rfl
  | cons b x ih =>
    obtain ⟨sym, hm⟩ | ⟨hm, ho⟩ | ⟨hm, ho⟩ := bit_cases T (buf ++ [b])
    · rw [unpackBits_match T buf x b sym hm] at h ⊢
      exact congrArg (· + 1) (ih [] h)
    · rw [unpackBits_overflow T buf x b hm ho] at h
      cases h
    · rw [unpackBits_wait T buf x b hm ho] at h ⊢
      exact congrArg (· + 1) (ih _ h)

end Sys2Proof.Safety

namespace Sys2Proof.Machine

open Sys2Proof.Safety

/-! ## The unpack commands, one equation per case -/

section
variable {s : State}

theorem exec_upByte_failed (b : Byte) (h0 : s.upErr ≠ 0) : exec (.upByte b) s = .next s :=
  if_pos (failed_up_of_ne s h0)

theorem exec_upByte_feed (b : Byte) (h0 : s.upErr = 0) : exec (.upByte b) s = .next (upFeed (bitsOf b) s) := by
  simp [exec, execUpByte, h0]

theorem exec_upTail_failed (b : Byte) (nv : BitVec 4) (h0 : s.upErr ≠ 0) : exec (.upTail b nv) s = .next s :=
  if_pos (failed_up_of_ne s h0)

theorem exec_upTail_feed (b : Byte) (nv : BitVec 4) (h0 : s.upErr = 0) (h1 : 1 ≤ nv.toNat) (h8 : nv.toNat ≤ 8) :
    exec (.upTail b nv) s = .next (upFeed (leadingBits nv.toNat b) s) := by
  simp [exec, execUpTail, nvLegal, h0, h1, h8]

theorem exec_upTail_badNv (b : Byte) (nv : BitVec 4) (h0 : s.upErr = 0) (h : nv.toNat = 0 ∨ 8 < nv.toNat) :
    exec (.upTail b nv) s = .next (raiseErr .badNv s) := by
  have hn : nvLegal nv = false := by
    rw [nvLegal, ← Bool.decide_and, decide_eq_false_iff_not]
    omega
  simp [exec, execUpTail, hn, h0]

theorem exec_upEnd_failed (h0 : s.upErr ≠ 0) : exec .upEnd s = .next s :=
  if_pos (failed_up_of_ne s h0)

theorem exec_upEnd_empty (h0 : s.upErr = 0) (hbuf : s.upBuf = []) : exec .upEnd s = .next s := by
  simp [exec, execUpEnd, h0, hbuf]

theorem exec_upEnd_leftover (h0 : s.upErr = 0) (hbuf : s.upBuf ≠ []) :
    exec .upEnd s = .next (raiseErr .leftover s) := by
  simp [exec, execUpEnd, h0, hbuf]

end

/-- Settles O36: the two cases of UP_END without an error. -/
theorem upEndChecksForLeftoverBits : Obligations.UpEndChecksForLeftoverBits := by
  refine fun s h0 => ⟨fun hbuf => ?_, exec_upEnd_leftover h0⟩
  have hend := exec_upEnd_empty h0 hbuf
  exact ⟨hend, runCmds_pair .upEnd .upEnd s s s hend hend⟩

/-! ## UP_START -/

/-- The state UP_START leaves (R155). -/
def startedUnpackJob (s : State) : State :=
  { s with upBuf := [], upSyms := 0, upBits := 0, upErr := 0, upSub := 0 }

theorem exec_upStart (s : State) : exec .upStart s = .next (startedUnpackJob s) := rfl

/-- Bits 23:16 of STATUS are UP_ERR and UP_SUB, and read 0 when both are (R38). -/
theorem regStatus_up_cleared {s : State} (he : s.upErr = 0) (hs : s.upSub = 0) :
    (regStatus s).extractLsb' 16 8 = 0 := by
  have hzero (lo : Nat) : fieldAt lo 0#4 = 0 := by simp [fieldAt]
  simp [regStatus, BitVec.extractLsb'_or, he, hs, hzero, -fieldAt_zero]

/-- Settles O30: UP_START is one record update, after which STATUS is `regStatus_up_cleared`. -/
theorem upStartBeginsAJob : Obligations.UpStartBeginsAJob :=
  fun s => ⟨startedUnpackJob s, exec_upStart s, rfl, rfl, rfl, rfl, regStatus_up_cleared rfl rfl⟩

/-! ## The bits of UP_BYTE and UP_TAIL -/

/-- What the bit loop leaves, in the terms of the source's unpacker: its symbols, its buffer, the bits it took, and
whether it overflowed (R153, R156, R185). -/
theorem upFeed_unpacks (x : BitString) (s : State) (h0 : s.upErr = 0) (r : Unpacked)
    (hr : r = unpackBits s.table s.upBuf x) :
    (upFeed x s).upBuf = r.buf ∧ (upFeed x s).upo = s.upo ++ r.syms ∧
      (upFeed x s).upSyms = s.upSyms + BitVec.ofNat 32 r.syms.length ∧
      (upFeed x s).upBits = s.upBits + BitVec.ofNat 32 r.used ∧
      (r.overflow = false → (upFeed x s).upErr = 0 ∧ (upFeed x s).upSub = s.upSub ∧ r.used = x.length) ∧
      (r.overflow = true → (upFeed x s).upErr = 3 ∧ (upFeed x s).upSub = 1 ∧ (upFeed x s).upBuf = []) ∧
      SameTbl s (upFeed x s) ∧ SamePk s (upFeed x s) ∧ SameCtl s (upFeed x s) := by
  subst hr
  rw [upFeed_eq]
  refine ⟨rfl, rfl, rfl, rfl, fun ho => ?_, fun ho => ?_, sameTbl_refl s, samePk_refl s, sameCtl_refl s⟩
  · exact ⟨by simp [ho, h0], by simp [ho], unpackBits_used _ _ _ ho⟩
  · exact ⟨by simp [ho], by simp [ho], unpackBits_overflow_buf _ _ _ ho⟩

/-- The first `nv` bits of a byte, bit 7 first (R157). -/
theorem leadingBits_eq_map (nv : Nat) (b : Byte) (h : nv ≤ 8) :
    leadingBits nv b = (List.range nv).map fun i => b.getLsbD (7 - i) := by
  rw [leadingBits, bitsOf, ← List.map_take, List.take_range, Nat.min_eq_left h]

/-- Settles O33: UP_BYTE is the bit loop on `bits(b)`, which is the list of the statement. -/
theorem upByteUnpacksEightBits : Obligations.UpByteUnpacksEightBits := fun s b h0 r hr =>
  ⟨_, exec_upByte_feed b h0, upFeed_unpacks (bitsOf b) s h0 r hr⟩

/-- Settles O34: a legal NV is the bit loop on the first NV bits, any other is BAD_NV, and the first 8 bits are the byte. -/
theorem upTailUnpacksTheValidBits : Obligations.UpTailUnpacksTheValidBits := by
  refine fun s b nv h0 => ⟨fun h1 h8 r hr => ?_, exec_upTail_badNv b nv h0, ?_⟩
  · have hfeed := upFeed_unpacks (leadingBits nv.toNat b) s h0 r (leadingBits_eq_map nv.toNat b h8 ▸ hr)
    rw [leadingBits_length, Nat.min_eq_left h8] at hfeed
    exact ⟨_, exec_upTail_feed b nv h0 h1 h8, hfeed⟩
  · rw [exec_upTail_feed b 8 h0 (by decide) (by decide), exec_upByte_feed b h0]
    exact congrArg (fun x => Host.Outcome.next (upFeed x s)) (leadingBits_eight b)

/-! ## What clears UP_ERR -/

/-- A failed unpack engine is left alone by every command but UP_START (R107, R150). -/
theorem exec_failed_sameUp (i : Instr) (s t : State) (hi : i ≠ .upStart) (h0 : s.upErr ≠ 0)
    (h : exec i s = .next t) : SameUp s t := by
  cases i with
  | upStart => exact absurd rfl hi
  | upByte b =>
    rw [exec_upByte_failed b h0] at h
    cases h
    exact sameUp_refl s
  | upTail b nv =>
    rw [exec_upTail_failed b nv h0] at h
    cases h
    exact sameUp_refl s
  | upEnd =>
    rw [exec_upEnd_failed h0] at h
    cases h
    exact sameUp_refl s
  | _ => exact exec_sameUp _ s t rfl h

/-- Settles O35: an event that clears UP_ERR changes it, so it is a reset or a command that `exec_failed_sameUp` leaves
only UP_START to be. -/
theorem failedUnpackEngineIgnoresCommands : Obligations.FailedUnpackEngineIgnoresCommands := by
  refine fun s h0 => ⟨fun b => exec_upByte_failed b h0, fun b nv => exec_upTail_failed b nv h0, exec_upEnd_failed h0,
    fun e t he ht => ?_⟩
  have hne : t.upErr ≠ s.upErr := fun h => h0 (h.symm.trans ht)
  obtain hreset | ⟨hblock, i, rest, hd, hexec⟩ := sysStep_changes_err .up e s t he hne
  · exact .inl hreset
  · refine .inr ⟨hblock, rest, ?_⟩
    by_cases hi : i = .upStart
    · exact hi ▸ hd
    · obtain ⟨-, -, -, herr, -⟩ := exec_failed_sameUp i (consume i.words s) t hi h0 hexec
      exact absurd herr hne

end Sys2Proof.Machine
end

section
/-! PROOF that a shadowed symbol is never emitted (R165): O37. A buffer that grew from the empty one bit by bit has been
matched at every length, so no part of it is a code. -/

namespace Sys2Proof.Safety

open Sys2Proof.Machine

/-- No non-empty beginning of the buffer is a code. -/
def Unmatched (T : Table) (buf : BitString) : Prop := ∀ y, y <+: buf → y ≠ [] → T.lowestMatch y = none

theorem unmatched_nil (T : Table) : Unmatched T [] := fun _ hy hne => absurd (List.prefix_nil.mp hy) hne

theorem Unmatched.concat {T : Table} {buf : BitString} {b : Bool} (h : Unmatched T buf)
    (hm : T.lowestMatch (buf ++ [b]) = none) : Unmatched T (buf ++ [b]) := by
  intro y hy hne
  obtain rfl | hy := List.prefix_concat_iff.mp hy
  · exact hm
  · exact h y hy hne

/-- Every emitted symbol was found at the last bit of its code, when no shorter part of the code had matched. -/
theorem emitted_of_unmatched (T : Table) (buf x : BitString) (sym : Byte) (hbuf : Unmatched T buf)
    (h : sym ∈ (unpackBits T buf x).syms) : ∃ y b, T.lowestMatch (y ++ [b]) = some sym ∧ Unmatched T y := by
  induction x generalizing buf with
  | nil => simp at h
  | cons b x ih =>
    obtain ⟨found, hm⟩ | ⟨hm, ho⟩ | ⟨hm, ho⟩ := bit_cases T (buf ++ [b])
    · rw [unpackBits_match T buf x b found hm] at h
      obtain rfl | h := List.mem_cons.mp h
      · exact ⟨buf, b, hm, hbuf⟩
      · exact ih [] (unmatched_nil T) h
    · rw [unpackBits_overflow T buf x b hm ho] at h
      cases h
    · rw [unpackBits_wait T buf x b hm ho] at h
      exact ih (buf ++ [b]) (hbuf.concat hm) h

/-- Settles O37: a shorter code that begins the code would have matched before its last bit, and an equal code of a lower symbol
is what the lookup finds. -/
theorem shadowedSymbolsAreNeverEmitted : Obligations.ShadowedSymbolsAreNeverEmitted := by
  intro T a b ca cb x ha hb hne hshadow hmem
  obtain ⟨y, bit, hm, hy⟩ := emitted_of_unmatched T [] x b (unmatched_nil T) hmem
  obtain rfl : y ++ [bit] = cb := Option.some.inj ((read_of_lowestMatch T _ b hm).symm.trans hb)
  obtain ⟨hpre, hproper⟩ | ⟨rfl, hlt⟩ := hshadow
  · have hca : ca <+: y := (List.prefix_concat_iff.mp hpre).resolve_left hproper
    exact (lowestMatch_none T ca).mp (hy ca hca hne) a ha
  · exact absurd (lowestMatch_le T _ b a hm ha) (Nat.not_le.mpr hlt)

end Sys2Proof.Safety
end

section
/-! PROOF of the round-trip law (R160): O38. The bits an unpack job gives to the matcher are the bits that were packed, and
the source's unpacker reads concatenated codes back (`unpackBits_codesOf`). -/

namespace Sys2Proof.Safety

open Sys2Proof.Machine

/-! ## The bits of a packed stream -/

/-- The bytes of a non-empty bit-string, without the padding of the last, are the bit-string (R133, R159). -/
theorem bits_of_packBits (x : BitString) (hx : x ≠ []) : ∃ bytes last, packBits x = bytes ++ [last] ∧
    bytes.flatMap bitsOf ++ leadingBits (8 - (8 - x.length % 8) % 8) last = x := by
  induction h : x.length using Nat.strong_induction_on generalizing x with
  | _ n ih =>
    subst h
    have hpos : 0 < x.length := List.length_pos_iff.mpr hx
    obtain hs | ⟨g, y, hg, rfl⟩ := short_or_group x
    · have hnv : 8 - (8 - x.length % 8) % 8 = x.length := by omega
      refine ⟨[], padToByte x, packBits_short x hs hx, ?_⟩
      rw [hnv, leadingBits, bitsOf_padToByte x hs.le]
      exact List.take_left
    · by_cases hy : y = []
      · subst hy
        refine ⟨[], byteOf g, ?_, ?_⟩
        · rw [packBits_group g [] hg, packBits_nil]
          rfl
        · simp [hg, bitsOf_byteOf]
      · obtain ⟨bytes, last, hpack, hbits⟩ := ih y.length (by simp [hg]) y hy rfl
        refine ⟨byteOf g :: bytes, last, ?_, ?_⟩
        · rw [packBits_group g y hg, hpack, List.cons_append]
        · rw [List.flatMap_cons, bitsOf_byteOf g hg, List.length_append, hg, Nat.add_mod_left, List.append_assoc, hbits]

end Sys2Proof.Safety

namespace Sys2Proof.Machine

open Sys2Proof.Safety

/-! ## Several bytes -/

@[simp] theorem upFeed_table (x : BitString) (s : State) : (upFeed x s).table = s.table := by rw [upFeed_eq]

@[simp] theorem upFeed_upBuf (x : BitString) (s : State) :
    (upFeed x s).upBuf = (unpackBits s.table s.upBuf x).buf := by rw [upFeed_eq]

theorem upFeed_upErr (x : BitString) (s : State) (ho : (unpackBits s.table s.upBuf x).overflow = false) :
    (upFeed x s).upErr = s.upErr := by
  rw [upFeed_eq, ho]
  rfl

/-- Bits given in two parts are the two parts in turn, when the first does not overflow (R159). -/
theorem upFeed_append (x y : BitString) (s : State) (ho : (unpackBits s.table s.upBuf x).overflow = false) :
    upFeed (x ++ y) s = upFeed y (upFeed x s) := by
  simp [upFeed_eq y, upFeed_eq x, upFeed_eq (x ++ y), unpackBits_append _ _ _ _ ho, ho, BitVec.ofNat_add,
    BitVec.add_assoc]

/-- What overflows at no bit overflows at no bit of its first part, nor of the rest after it. -/
theorem no_overflow_of_append {T : Table} {buf x y : BitString} (h : (unpackBits T buf (x ++ y)).overflow = false) :
    (unpackBits T buf x).overflow = false ∧ (unpackBits T (unpackBits T buf x).buf y).overflow = false := by
  cases hx : (unpackBits T buf x).overflow with
  | false =>
    rw [unpackBits_append T buf x y hx] at h
    exact ⟨rfl, h⟩
  | true =>
    rw [unpackBits_append_overflow T buf x y hx, hx] at h
    cases h

/-- UP_BYTE of several bytes gives the bits of all of them to the matcher, when they do not overflow (R156). -/
theorem runCmds_upBytes (bytes : List Byte) (s : State) (h0 : s.upErr = 0)
    (ho : (unpackBits s.table s.upBuf (bytes.flatMap bitsOf)).overflow = false) :
    runCmds (bytes.map .upByte) s = .next (upFeed (bytes.flatMap bitsOf) s) := by
  induction bytes generalizing s with
  | nil => rfl
  | cons b bytes ih =>
    rw [List.flatMap_cons] at ho ⊢
    obtain ⟨hb, hrest⟩ := no_overflow_of_append ho
    have herr : (upFeed (bitsOf b) s).upErr = 0 := (upFeed_upErr _ s hb).trans h0
    rw [List.map_cons, runCmds_next _ (exec_upByte_feed b h0), upFeed_append _ _ s hb]
    exact ih _ herr (by rw [upFeed_table, upFeed_upBuf]; exact hrest)

/-! ## The unpack job -/

theorem asmUpStream_concat (pad : Nat) (bytes : List Byte) (last : Byte) :
    asmUpStream pad (bytes ++ [last]) =
      .upStart :: (bytes.map .upByte ++ [.upTail last (BitVec.ofNat 4 (8 - pad)), .upEnd]) := by
  simp [asmUpStream]

/-- An unpack job gives the bits of its bytes, without the padding of the last, to the matcher. When they overflow at no
bit and leave none, UP_END finds an empty buffer (R156 to R159). -/
theorem runCmds_asmUpStream (pad : Nat) (bytes : List Byte) (last : Byte) (s : State) (hpad : pad ≤ 7)
    (ho : (unpackBits s.table [] (bytes.flatMap bitsOf ++ leadingBits (8 - pad) last)).overflow = false)
    (hbuf : (unpackBits s.table [] (bytes.flatMap bitsOf ++ leadingBits (8 - pad) last)).buf = []) :
    runCmds (asmUpStream pad (bytes ++ [last])) s =
      .next (upFeed (bytes.flatMap bitsOf ++ leadingBits (8 - pad) last) (startedUnpackJob s)) := by
  have hnv : (BitVec.ofNat 4 (8 - pad)).toNat = 8 - pad := by
    rw [BitVec.toNat_ofNat]
    omega
  obtain ⟨hb, -⟩ := no_overflow_of_append ho
  have hbytes := runCmds_upBytes bytes (startedUnpackJob s) rfl hb
  have htail := exec_upTail_feed last (BitVec.ofNat 4 (8 - pad)) (upFeed_upErr _ (startedUnpackJob s) hb)
    (by omega) (by omega)
  rw [hnv, ← upFeed_append _ _ _ hb] at htail
  have hend := exec_upEnd_empty (upFeed_upErr _ (startedUnpackJob s) ho) ((upFeed_upBuf _ _).trans hbuf)
  rw [asmUpStream_concat, runCmds_next _ (exec_upStart s), runCmds_append _ _ _ _ hbytes]
  exact runCmds_pair _ _ _ _ _ htail hend

/-- The unpack job of some packed bits gives exactly those bits to the matcher (R133, R159). -/
theorem runCmds_asmUpStream_packBits (x : BitString) (s : State)
    (ho : (unpackBits s.table [] x).overflow = false) (hbuf : (unpackBits s.table [] x).buf = []) :
    runCmds (asmUpStream ((8 - x.length % 8) % 8) (packBits x)) s = .next (upFeed x (startedUnpackJob s)) := by
  by_cases hx : x = []
  · subst hx
    rw [packBits_nil]
    exact runCmds_pair .upStart .upEnd s _ _ rfl rfl
  · obtain ⟨bytes, last, hpack, hbits⟩ := bits_of_packBits x hx
    have hjob := runCmds_asmUpStream ((8 - x.length % 8) % 8) bytes last s (by omega) (by rw [hbits, ho])
      (by rw [hbits, hbuf])
    rwa [hbits, ← hpack] at hjob

/-- After a pack job the number of packed bits is 8 times PK_BYTES minus PAD (R133, R163). -/
theorem length_of_pack_job (x : BitString) (n : Nat) (s : State) :
    BitVec.ofNat 32 x.length = 8 * (packedSegment x n (startedPackJob s)).pkBytes -
      BitVec.ofNat 32 (packedSegment x n (startedPackJob s)).pkPad := by
  have hbytes : (packedSegment x n (startedPackJob s)).pkBytes = BitVec.ofNat 32 ((x.length + 7) / 8) :=
    BitVec.zero_add _
  have hpad : (packedSegment x n (startedPackJob s)).pkPad = (8 - x.length % 8) % 8 := rfl
  have hbits : x.length + (8 - x.length % 8) % 8 = 8 * ((x.length + 7) / 8) := by omega
  rw [hbytes, hpad, BitVec.eq_sub_iff_add_eq, ← BitVec.ofNat_add, hbits, BitVec.ofNat_mul]
  rfl

/-- Settles O38: the pack job pushes the bytes of the concatenated codes, and the unpack job reads the codes back. -/
theorem roundTripLaw : Obligations.RoundTripLaw := by
  intro s t u syms bytes hp hne hc hrun hpko hT
  rw [runCmds_asmPkStream syms s hc] at hrun
  cases hrun
  obtain rfl : packBits (codesOf s.table syms) = bytes := List.append_cancel_left hpko
  have hback : unpackBits u.table [] (codesOf s.table syms) = ⟨syms, [], (codesOf s.table syms).length, false⟩ := by
    rw [hT]
    exact unpackBits_codesOf s.table hp hne syms hc
  have hjob := runCmds_asmUpStream_packBits (codesOf s.table syms) u (by rw [hback]) (by rw [hback])
  obtain ⟨hbuf, hupo, hsyms, hbits, hok, -, hTbl, hPk, hCtl⟩ :=
    upFeed_unpacks (codesOf s.table syms) (startedUnpackJob u) rfl _ hback.symm
  obtain ⟨herr, -, -⟩ := hok rfl
  exact ⟨_, hjob, hupo, herr, hbuf, hsyms.trans (BitVec.zero_add _),
    hbits.trans ((BitVec.zero_add _).trans (length_of_pack_job _ _ s)), hTbl, hPk, hCtl⟩

end Sys2Proof.Machine
end

section
/-! PROOF of how errors are raised, recorded, kept and cleared (R180 to R188): O39, O40, O41, O42, O43. -/

namespace Sys2Proof.Machine

open Sys2Proof.Safety

/-! ## Recording an error (R184) -/

/-- The errors of the unpack engine are the ones that record no symbol (R184). -/
theorem Err.info_eq_none_iff (e : Err) : e.info = none ↔ e.engine = .up := by
  cases e <;> simp [Err.info, Err.engine]

theorem Err.info_eq_some (e : Err) (he : e.engine ≠ .up) : ∃ sym, e.info = some sym :=
  Option.ne_none_iff_exists'.mp fun h => he (e.info_eq_none_iff.mp h)

/-- Settles O39: the engine of the error picks the branch of `raiseErr`. -/
theorem raisingAnErrorRecordsIt : Obligations.RaisingAnErrorRecordsIt := by
  refine fun e s => ⟨fun he => ⟨?_, e.info_eq_some (by simp [he])⟩, fun he => ⟨?_, e.info_eq_some (by simp [he])⟩,
    fun he => ⟨?_, e.info_eq_none_iff.mpr he⟩⟩
  all_goals rw [raiseErr, he]

/-! ## Which commands raise an error (R182) -/

/-- Only TBL_LD raises an error of the table loader. -/
theorem exec_raises_tblErr {i : Instr} {s t : State} (h : exec i s = .next t) (h0 : s.tblErr = 0)
    (hne : t.tblErr ≠ 0) : t.tblErr = 2 ∧ ∃ sym code, i = .tblLd sym code := by
  cases i with
  | tblClr => cases h; exact absurd rfl hne
  | tblLd sym code =>
    cases h
    obtain ⟨herr, -⟩ := tblLoad_error h0 hne
    exact ⟨herr, sym, code, rfl⟩
  | _ =>
    obtain ⟨-, herr, -⟩ := exec_sameTbl _ s t rfl h
    exact absurd (herr.trans h0) hne

@[simp] theorem pkAppend_pkErr (x : BitString) (s : State) : (pkAppend x s).pkErr = s.pkErr := by
  obtain ⟨acc, n, bs, h⟩ := pkAppend_frame x s
  rw [h]

@[simp] theorem pkFlushPending_pkErr (s : State) : (pkFlushPending s).pkErr = s.pkErr := by
  rw [pkFlushPending]
  split_ifs <;> rfl

/-- Only PK_SYM raises an error of the pack engine. -/
theorem exec_raises_pkErr {i : Instr} {s t : State} (h : exec i s = .next t) (h0 : s.pkErr = 0)
    (hne : t.pkErr ≠ 0) : t.pkErr = 1 ∧ ∃ sym, i = .pkSym sym := by
  cases i with
  | pkStart => cases h; exact absurd rfl hne
  | pkSym sym =>
    cases hr : s.table.read sym with
    | none =>
      rw [exec_pkSym_unknown sym s h0 hr] at h
      cases h
      exact ⟨rfl, sym, rfl⟩
    | some code =>
      rw [exec_pkSym_code sym code s h0 hr] at h
      cases h
      exact absurd ((pkAppend_pkErr code s).trans h0) hne
  | pkFlush =>
    rw [exec_pkFlush_pending s h0] at h
    cases h
    exact absurd ((pkFlushPending_pkErr s).trans h0) hne
  | _ =>
    obtain ⟨-, -, -, -, herr, -⟩ := exec_samePk _ s t rfl h
    exact absurd (herr.trans h0) hne

/-- The bit loop raises no error but OVERFLOW (R153). -/
theorem upFeed_error {x : BitString} {s : State} (h0 : s.upErr = 0) (hne : (upFeed x s).upErr ≠ 0) :
    (upFeed x s).upErr = 3 ∧ (upFeed x s).upSub = 1 := by
  obtain ⟨-, -, -, -, -, hover, -⟩ := upFeed_unpacks x s h0 _ rfl
  cases ho : (unpackBits s.table s.upBuf x).overflow with
  | false => exact absurd ((upFeed_upErr x s ho).trans h0) hne
  | true =>
    obtain ⟨herr, hsub, -⟩ := hover ho
    exact ⟨herr, hsub⟩

/-- UP_BYTE raises OVERFLOW, UP_TAIL raises OVERFLOW or BAD_NV, UP_END raises LEFTOVER, and no other command raises an
error of the unpack engine. -/
theorem exec_raises_upErr {i : Instr} {s t : State} (h : exec i s = .next t) (h0 : s.upErr = 0)
    (hne : t.upErr ≠ 0) :
    (t.upErr = 3 ∧ t.upSub = 1 ∧ ((∃ b, i = .upByte b) ∨ ∃ b nv, i = .upTail b nv)) ∨
      (t.upErr = 3 ∧ t.upSub = 2 ∧ i = .upEnd) ∨ (t.upErr = 4 ∧ t.upSub = 1 ∧ ∃ b nv, i = .upTail b nv) := by
  cases i with
  | upStart => cases h; exact absurd rfl hne
  | upByte b =>
    rw [exec_upByte_feed b h0] at h
    cases h
    obtain ⟨herr, hsub⟩ := upFeed_error h0 hne
    exact .inl ⟨herr, hsub, .inl ⟨b, rfl⟩⟩
  | upTail b nv =>
    by_cases hnv : 1 ≤ nv.toNat ∧ nv.toNat ≤ 8
    · obtain ⟨h1, h8⟩ := hnv
      rw [exec_upTail_feed b nv h0 h1 h8] at h
      cases h
      obtain ⟨herr, hsub⟩ := upFeed_error h0 hne
      exact .inl ⟨herr, hsub, .inr ⟨b, nv, rfl⟩⟩
    · rw [exec_upTail_badNv b nv h0 (by omega)] at h
      cases h
      exact .inr (.inr ⟨rfl, rfl, b, nv, rfl⟩)
  | upEnd =>
    by_cases hbuf : s.upBuf = []
    · rw [exec_upEnd_empty h0 hbuf] at h
      cases h
      exact absurd h0 hne
    · rw [exec_upEnd_leftover h0 hbuf] at h
      cases h
      exact .inr (.inl ⟨rfl, rfl, rfl⟩)
  | _ =>
    obtain ⟨-, -, -, herr, -⟩ := exec_sameUp _ s t rfl h
    exact absurd (herr.trans h0) hne

theorem exec_sets_halt {i : Instr} {s t : State} (h : exec i s = .next t) (h0 : s.halt = false)
    (h1 : t.halt = true) : isReserved i = true := by
  by_contra hi
  simp [exec_keeps_halt i s t (Bool.eq_false_of_not_eq_true hi) h, h0] at h1

/-- Settles O41: one lemma per engine, and one for HALT. -/
theorem onlyTheNamedCommandsRaiseErrors : Obligations.OnlyTheNamedCommandsRaiseErrors := fun _ _ _ h =>
  ⟨exec_raises_tblErr h, exec_raises_pkErr h, exec_raises_upErr h, exec_sets_halt h⟩

/-! ## What clears an error, and what keeps it (R187, R188) -/

/-- Settles O42: the four commands are record updates; that nothing else clears an error is what R115, R130, R150 and R104
say of each field. -/
theorem errorsAreClearedOnlyByTheirStart : Obligations.ErrorsAreClearedOnlyByTheirStart := by
  refine ⟨fun s => ⟨⟨_, exec_pkStart s, rfl, rfl, rfl, rfl, rfl, rfl⟩, ⟨_, exec_upStart s, rfl, rfl, rfl, rfl, rfl⟩,
    ⟨_, rfl, rfl, rfl, rfl, rfl⟩, ⟨_, rfl, rfl, rfl, rfl, rfl⟩⟩,
    fun e s t h he => ⟨fun h0 ht => ?_, fun h0 ht => ?_, fun h0 ht => ?_, fun hh => sysStep_keeps_halted e s t he hh h⟩⟩
  · obtain ⟨-, -, hclears⟩ := failedPackEngineIgnoresCommands s h0
    exact ((hclears e t h ht).resolve_left he).2
  · obtain ⟨-, -, -, hclears⟩ := failedUnpackEngineIgnoresCommands s h0
    exact ((hclears e t h ht).resolve_left he).2
  · obtain ⟨-, -, hclears⟩ := poisonedTableIgnoresLoads s h0
    exact ((hclears e t h ht).resolve_left he).2

/-- Settles O43: the frames of a failed engine; from reset a load of an empty code, a symbol without a code and a byte that
matches none fail the three engines. -/
theorem firstErrorIsKept : Obligations.FirstErrorIsKept := by
  refine ⟨fun i s t h => ⟨fun h0 hi => exec_failed_samePk i s t hi h0 h, fun h0 hi => exec_failed_sameUp i s t hi h0 h,
    fun h0 hi => exec_poisoned_sameTbl i s t hi h0 h⟩, ?_⟩
  have hload : exec (.tblLd 0x41 []) State.reset = .next (raiseErr (.emptyCode 0x41) State.reset) := rfl
  have hsym := exec_pkSym_unknown 0x41 (raiseErr (.emptyCode 0x41) State.reset) rfl (read_emptyTable 0x41)
  have hbyte := exec_upByte_emptyTable 0x00 (raiseErr (.unknownSymbol 0x41) (raiseErr (.emptyCode 0x41) State.reset))
    rfl rfl
  exact ⟨_, (runCmds_next _ hload).trans (runCmds_pair _ _ _ _ _ hsym hbyte), rfl, rfl, rfl⟩

/-! ## STATUS after an error (R38, R181) -/

/-- No error is recorded, so STATUS reads 0 (R38). -/
structure NoFlag (s : State) : Prop where
  tblErr : s.tblErr = 0
  tblSub : s.tblSub = 0
  pkErr : s.pkErr = 0
  pkSub : s.pkSub = 0
  upErr : s.upErr = 0
  upSub : s.upSub = 0
  halt : s.halt = false

theorem noFlag_reset : NoFlag State.reset := ⟨rfl, rfl, rfl, rfl, rfl, rfl, rfl⟩

theorem NoFlag.setEntry {s : State} (h : NoFlag s) (sym : Byte) (code : BitString) :
    NoFlag (Machine.setEntry sym code s) := { h with }

theorem NoFlag.takeUpBit {s : State} (h : NoFlag s) (b : Bool) : NoFlag (Machine.takeUpBit b s) := { h with }

/-- STATUS with one engine's code and sub-code in that engine's two fields, and 0 in every other field (R38). -/
def statusOf (engine : Engine) (code sub : BitVec 4) : Word :=
  match engine with
  | .tbl => fieldAt 0 code ||| fieldAt 4 sub
  | .pk => fieldAt 8 code ||| fieldAt 12 sub
  | .up => fieldAt 16 code ||| fieldAt 20 sub

/-- With no other error recorded, STATUS after an error is its code and sub-code in its engine's fields. -/
theorem status_raiseErr (e : Err) {s : State} (h : NoFlag s) :
    readReg 0 (raiseErr e s) = statusOf e.engine e.code e.sub := by
  have hzero (lo n : Nat) : fieldAt lo 0#n = 0 := by simp [fieldAt]
  obtain ⟨hte, hts, hpe, hps, hue, hus, hh⟩ := h
  rw [raiseErr]
  cases he : e.engine <;>
    simp [regStatus, statusOf, hzero, hte, hts, hpe, hps, hue, hus, hh, -fieldAt_zero]

/-- A first bit that is the beginning of the only code waits for the second (R153). -/
theorem upFeed_first_of_two (sym : Byte) (b c : Bool) :
    upFeed [b] (setEntry sym [b, c] State.reset) = takeUpBit b (setEntry sym [b, c] State.reset) := by
  refine upFeed_wait b [] _ ((lowestMatch_none _ _).mpr fun other hr => ?_) (Nat.not_lt.mpr ?_)
  · obtain hold | hnew := (read_write_eq_some_iff emptyTable sym other [b, c] [b] (read_emptyTable sym)).mp hr
    · simp at hold
    · simp at hnew
  · exact le_trans (by decide : 1 ≤ 2) (length_le_maxl _ sym [b, c] (read_write_same _ _ _))

/-- A load from reset of a code of 1 to 255 bits is valid (R111). -/
theorem exec_tblLd_reset (sym : Byte) (code : BitString) (hpos : 0 < code.length) (hmax : code.length ≤ 255) :
    exec (.tblLd sym code) State.reset = .next (setEntry sym code State.reset) :=
  exec_tblLd_valid rfl hpos hmax (read_emptyTable sym)

/-- A second load of a symbol is DUPLICATE_SYMBOL (R113). -/
theorem runCmds_duplicate_load (sym : Byte) (b c : Bool) :
    runCmds [.tblLd sym [b], .tblLd sym [c]] State.reset =
      .next (raiseErr (.duplicateSymbol sym) (setEntry sym [b] State.reset)) := by
  have hread : (setEntry sym [b] State.reset).table.read sym ≠ none := by simp
  have hdup := tblLoad_duplicateSymbol (maxLen := 255) (code := [c]) (s := setEntry sym [b] State.reset) rfl
    (by simp) (by simp) hread
  exact runCmds_pair _ _ _ _ _ (exec_tblLd_reset sym [b] (by simp) (by simp)) (congrArg Host.Outcome.next hdup)

/-- One bit of the only code of two bits is left at UP_END, LEFTOVER (R158). -/
theorem runCmds_leftover_bit (sym : Byte) :
    runCmds [.tblLd sym [true, true], .upTail 0xFF 1, .upEnd] State.reset =
      .next (raiseErr .leftover (takeUpBit true (setEntry sym [true, true] State.reset))) := by
  have htail := exec_upTail_feed (s := setEntry sym [true, true] State.reset) 0xFF 1 rfl (by decide) (by decide)
  have hbits : leadingBits (BitVec.toNat (1 : BitVec 4)) 0xFF = [true] := by decide
  rw [hbits, upFeed_first_of_two] at htail
  rw [runCmds_next _ (exec_tblLd_reset sym [true, true] (by simp) (by simp))]
  exact runCmds_pair _ _ _ _ _ htail (exec_upEnd_leftover rfl (List.cons_ne_nil _ _))

/-- Settles O40: every error is raised from a state without one, where `status_raiseErr` is STATUS; HALT is its own bit. -/
theorem statusAfterEachError : Obligations.StatusAfterEachError := by
  refine ⟨fun sym => ?_, fun sym => ?_, fun sym maxLen code hlong => ?_, fun sym b c => ?_, fun b => ?_, fun sym => ?_,
    fun b => ?_, fun op => ⟨_, rfl, by decide⟩⟩
  · exact ⟨_, exec_pkSym_unknown sym _ rfl (read_emptyTable sym),
      (status_raiseErr _ noFlag_reset).trans (rfl : statusOf .pk 1 0 = _)⟩
  · exact ⟨raiseErr (.emptyCode sym) State.reset, rfl,
      (status_raiseErr _ noFlag_reset).trans (rfl : statusOf .tbl 2 1 = _)⟩
  · rw [tblLoad_codeTooLong rfl (Nat.zero_lt_of_lt hlong) hlong]
    exact (status_raiseErr _ noFlag_reset).trans (rfl : statusOf .tbl 2 2 = _)
  · exact ⟨_, runCmds_duplicate_load sym b c,
      (status_raiseErr _ (noFlag_reset.setEntry _ _)).trans (rfl : statusOf .tbl 2 3 = _)⟩
  · exact ⟨_, exec_upByte_emptyTable b _ rfl rfl,
      (status_raiseErr _ (noFlag_reset.takeUpBit _)).trans (rfl : statusOf .up 3 1 = _)⟩
  · exact ⟨_, runCmds_leftover_bit sym,
      (status_raiseErr _ ((noFlag_reset.setEntry _ _).takeUpBit _)).trans (rfl : statusOf .up 3 2 = _)⟩
  · exact ⟨_, exec_upTail_badNv b 0 rfl (.inl rfl),
      (status_raiseErr _ noFlag_reset).trans (rfl : statusOf .up 4 1 = _)⟩

end Sys2Proof.Machine
end

section
/-! PROOF of the command sequence that gives the reset state (R201): O57. -/

namespace Sys2Proof.Machine

theorem exec_tblClr (s : State) : exec .tblClr s = .next (clearTblErr (clearTable s)) := rfl

/-- The three engines' clears give every state element its reset value, but for HALT, CMD_WORDS and the queues (R110,
R134, R155). -/
theorem cleared_engines_eq_reset (s : State) :
    startedUnpackJob (startedPackJob (clearTblErr (clearTable s))) = { State.reset with
      halt := s.halt, cmdWords := s.cmdWords, cq := s.cq, pko := s.pko, upo := s.upo } := rfl

/-- Settles O57: each command clears its own engine, and HALT, which none of them writes, has its reset value before. -/
theorem clearCommandsGiveTheResetState : Obligations.ClearCommandsGiveTheResetState := by
  intro s hhalt
  have hrun : runCmds [.tblClr, .pkStart, .upStart] s =
      .next (startedUnpackJob (startedPackJob (clearTblErr (clearTable s)))) :=
    (runCmds_next _ (exec_tblClr s)).trans (runCmds_pair _ _ _ _ _ (exec_pkStart _) (exec_upStart _))
  rw [hrun, cleared_engines_eq_reset, hhalt]
  rfl

end Sys2Proof.Machine
end
